-- ==== Sys2Proof/Word.lean ====
section
/-! DEFINITION. The words of the block: bytes, request words, line levels, buffer positions (00_scope.md R5, R12). -/

namespace Sys2Proof

/-- A buffer byte, a glyph lane, a chip opcode, an emitted byte: all 8 bits, unsigned (R12). -/
abbrev Byte := BitVec 8

/-- A request word `REQ[50:0]` (30_encoding.md R37). -/
abbrev ReqWord := BitVec 51

/-- A line level or one bit on a line: `true` is 1 (R12: `l` in 0, 1). -/
abbrev Bit := Bool

/-- `N`, the number of character positions and of buffer bytes: 6, a constant (R5). -/
abbrev numPositions : Nat := 6

/-- A buffer index, which is a display position, 0 to 5 (10_state.md R13, R20). -/
abbrev Pos := Fin 6

/-- Six bytes, element 0 first: the segment buffer, or the six lanes of `LDG` (R13, R40). -/
abbrev SixBytes := Vector Byte 6

end Sys2Proof
end

