-- ==== Sys2Proof/Config.lean ====
section
/-! DEFINITION. The construction parameters of the block (00_scope.md section 3, R5 to R9) and the host's chip opcodes (R50).

A parameter is no state of the block (R11) and no operation changes it. Parameters are plain data, so that a
statement can be made for every value of them; the values the spec names as defaults stand here as named constants. -/

namespace Sys2Proof

/-- `PAIR_HIGH` (R8): which byte of a buffer byte-pair is bits 15:8 of its word. -/
inductive PairHigh where
  /-- The even-indexed byte is the high byte. -/
  | even
  /-- The odd-indexed byte is the high byte. -/
  | odd
deriving DecidableEq, Repr

/-- The parameters R6, R7, R8 leave to the configuration, before any check (WellFormed.lean checks them). -/
structure Params where
  /-- `CMD_TAG`, the command frame's type tag (R6). -/
  cmdTag : BitVec 4
  /-- `DATA_TAG`, the data frame's type tag (R6). -/
  dataTag : BitVec 3
  /-- `CMD_PAD`, the low bits of the command container (R6, R44). -/
  cmdPad : BitVec 4
  /-- `DATA_PAD`, the low bits of the data container (R6, R45). -/
  dataPad : BitVec 7
  /-- `PAIR_HIGH` (R8). -/
  pairHigh : PairHigh
  /-- `DOT_BASE`, the index a decimal-point position is subtracted from (R7). -/
  dotBase : Nat
  /-- `B1`, the bar level LOW sets (R7). -/
  b1 : Nat
  /-- `B2`, the bar MEDIUM adds (R7). -/
  b2 : Nat
  /-- `B3`, the bar FULL adds (R7). -/
  b3 : Nat
deriving DecidableEq, Repr

/-- `OV`, the overlay bit of a buffer byte (R7). -/
def OV : Byte := 0x80#8

/-- `SEG`, the glyph bits of a buffer byte (R7). -/
def SEG : Byte := 0x7F#8

/-- `ADDR`, the data frame's address field, constant 0 (R6, R21). -/
def ADDR : BitVec 6 := 0#6

/-- `CFG_DOC`, the spec's default parameters (summary table after R9; 93_implementation_defined.md section 2).
The tags are PRESUMED (log 2), the pads UNVERIFIED (log 3), `PAIR_HIGH` PRESUMED (log 4), the overlay layout a DESIGN CHOICE (log 5). Unsafe. -/
def Params.doc : Params :=
  { cmdTag := 0b1000#4, dataTag := 0b101#3, cmdPad := 0#4, dataPad := 0#7, pairHigh := .odd,
    dotBase := 5, b1 := 0, b2 := 1, b3 := 5 }

/-- `CFG_UPSTREAM`, the alternative overlay layout of 93_implementation_defined.md section 2. -/
def Params.upstream : Params :=
  { Params.doc with dotBase := 6, b1 := 2, b2 := 1, b3 := 0 }

/-- The seven chip opcode values of R50. They belong to the host: the block frames any opcode the same way (R39). -/
structure ChipOpcodes where
  bias : Byte
  rc : Byte
  sysDis : Byte
  wdtDis : Byte
  sysEn : Byte
  lcdOn : Byte
  lcdOff : Byte
deriving DecidableEq, Repr

/-- The default opcode values of D18. PRESUMED, from general knowledge (log 20); unsafe for a claim about what the chip does. -/
def ChipOpcodes.default : ChipOpcodes :=
  { bias := 0x52#8, rc := 0x30#8, sysDis := 0x00#8, wdtDis := 0x0A#8, sysEn := 0x02#8, lcdOn := 0x06#8, lcdOff := 0x04#8 }

end Sys2Proof
end

