-- ==== Sys2Proof/Syntax.lean ====
section
/-! DEFINITION. The five operations of the block (30_encoding.md R38) and the assembler line of R49. -/

namespace Sys2Proof

/-- The four battery levels of R42, in their order by inclusion. -/
inductive BatLevel where
  | none
  | low
  | medium
  | full
deriving DecidableEq, Repr

/-- The operations, one constructor per row of opcode_table.json. Every operand value of every operation is legal
(R43), and the types hold exactly the legal values: no `Instr` is ill-formed. -/
inductive Instr where
  /-- `CMD`: emit one command frame carrying a chip opcode (R39, R58). -/
  | cmd (opcode : Byte)
  /-- `LDG`: load six glyph masks, lane `i` for position `i` (R40, R72). A lane keeps its ignored bit 7 here (log 21). -/
  | ldg (g : SixBytes)
  /-- `DOT`: set the decimal point, `p` digits from the right (R41, R73). -/
  | dot (p : Byte)
  /-- `BAT`: set the battery level (R42, R74). -/
  | bat (level : BatLevel)
  /-- `CLR`: blank everything (R42, R75). -/
  | clr
deriving DecidableEq, Repr

/-- A line of the assembler of R49: the operands are numbers as written, in no range yet. -/
inductive AsmLine where
  | cmd (opcode : Nat)
  | ldg (g : List Nat)
  | dot (p : Nat)
  | bat (level : Nat)
  | clr
deriving DecidableEq, Repr

end Sys2Proof
end

