-- ==== Sys2Proof/WellFormed.lean ====
section
/-! DEFINITION. What is well-formed: a configuration (00_scope.md R7, 92_eei_decisions.md D20) and an assembler line (30_encoding.md R49).

A machine instruction needs no check: every operand value of a defined operation is legal (R43), and `Instr` holds no other. -/

namespace Sys2Proof

/-- `DOTIDX` lies in 0..5. DEDUCED from "with `N = 6` this makes `DOTIDX` and the battery indices a partition of 0..5"
(R7) and from D20 ("would index outside 0..5"): log 11; safe. -/
def Params.dotsInRange (p : Params) : Bool := decide (3 ≤ p.dotBase) && decide (p.dotBase ≤ 6)

/-- `B1`, `B2`, `B3` are all below `N` (R7). -/
def Params.barsInRange (p : Params) : Bool :=
  decide (p.b1 < numPositions) && decide (p.b2 < numPositions) && decide (p.b3 < numPositions)

/-- `B1`, `B2`, `B3` are pairwise different (R7). -/
def Params.barsDiffer (p : Params) : Bool :=
  decide (p.b1 ≠ p.b2) && decide (p.b1 ≠ p.b3) && decide (p.b2 ≠ p.b3)

/-- The index `i` is in `DOTIDX = {DOT_BASE - 1, DOT_BASE - 2, DOT_BASE - 3}` (R7). -/
def Params.isDotIdx (p : Params) (i : Nat) : Bool :=
  decide (i + 1 = p.dotBase) || decide (i + 2 = p.dotBase) || decide (i + 3 = p.dotBase)

/-- None of `B1`, `B2`, `B3` is in `DOTIDX` (R7). -/
def Params.barsAreNoDots (p : Params) : Bool :=
  !p.isDotIdx p.b1 && !p.isDotIdx p.b2 && !p.isDotIdx p.b3

/-- A configuration is well-formed exactly when all four checks pass (R7). -/
def Params.wellFormed (p : Params) : Bool :=
  p.dotsInRange && p.barsInRange && p.barsDiffer && p.barsAreNoDots

/-- A well-formed configuration. An ill-formed one is refused at construction (60_exceptions.md R86, D20), so a state
holds none: the check is carried by the type and needs no test inside an operation. -/
structure Config where
  /-- The parameters. -/
  params : Params
  /-- They are well-formed (R7). -/
  ok : params.wellFormed = true
deriving DecidableEq, Repr

/-- `CFG_DOC`, the default configuration. -/
def Config.doc : Config := ⟨Params.doc, by decide⟩

/-- `CFG_UPSTREAM`, the alternative overlay layout. -/
def Config.upstream : Config := ⟨Params.upstream, by decide⟩

/-- The numbers of an assembler line are in the ranges R49 gives. -/
def AsmLine.wellFormed : AsmLine → Bool
  | .cmd opcode => decide (opcode < 256)
  | .ldg g => decide (g.length = numPositions) && g.all (fun m => decide (m < 256))
  | .dot p => decide (p < 256)
  | .bat level => decide (level < 4)
  | .clr => true

/-- What well-formedness says of the indices, as arithmetic. -/
theorem Config.index_facts (c : Config) :
    (3 ≤ c.params.dotBase ∧ c.params.dotBase ≤ 6) ∧
      (c.params.b1 < 6 ∧ c.params.b2 < 6 ∧ c.params.b3 < 6) ∧
      (c.params.b1 ≠ c.params.b2 ∧ c.params.b1 ≠ c.params.b3 ∧ c.params.b2 ≠ c.params.b3) ∧
      c.params.isDotIdx c.params.b1 = false ∧ c.params.isDotIdx c.params.b2 = false ∧
      c.params.isDotIdx c.params.b3 = false := by
  have h := c.ok
  simp only [Params.wellFormed, Params.dotsInRange, Params.barsInRange, Params.barsDiffer, Params.barsAreNoDots,
    numPositions, Bool.and_eq_true, decide_eq_true_eq, Bool.not_eq_eq_eq_not, Bool.not_true] at h
  obtain ⟨⟨⟨⟨h1, h2⟩, ⟨h3, h4⟩, h5⟩, ⟨h6, h7⟩, h8⟩, ⟨h9, h10⟩, h11⟩ := h
  exact ⟨⟨h1, h2⟩, ⟨h3, h4, h5⟩, ⟨h6, h7, h8⟩, h9, h10, h11⟩

end Sys2Proof
end

