-- ==== Sys2Proof/Decode.lean ====
section
/-! DEFINITION. The request word: decoder, encoder, assembler (30_encoding.md R37 to R43, R49). -/

namespace Sys2Proof

/-- Why a request word is no instruction. -/
inductive DecodeError where
  /-- The operation code is 0b101, 0b110 or 0b111, which select no operation (R43). -/
  | reservedOp (op : BitVec 3)
deriving DecidableEq, Repr

/-- Element `i` of six bytes: `BUF[i]`, or lane `g[i]` (R12, R40). Every read of one goes through here. -/
def byteAt (b : SixBytes) (i : Pos) : Byte := b[i]

/-- `op = REQ[50:48]` (R37). -/
def opField (w : ReqWord) : BitVec 3 := w.extractLsb' 48 3

/-- `arg = REQ[47:0]` (R37). -/
def argField (w : ReqWord) : BitVec 48 := w.extractLsb' 0 48

/-- Lane `i` of an argument: `g[i] = arg[8i+7 : 8i]` (R40). Lane 0 is also the opcode of `CMD` (R39) and `p` of `DOT` (R41). -/
def lane (arg : BitVec 48) (i : Nat) : Byte := arg.extractLsb' (8 * i) 8

/-- The six lanes of an argument, lane 0 first (R40). -/
def lanes (arg : BitVec 48) : SixBytes :=
  #v[lane arg 0, lane arg 1, lane arg 2, lane arg 3, lane arg 4, lane arg 5]

/-- The numeric code of a battery level: `NONE = 0`, `LOW = 1`, `MEDIUM = 2`, `FULL = 3` (R42). -/
def BatLevel.code : BatLevel → BitVec 2
  | .none => 0#2
  | .low => 1#2
  | .medium => 2#2
  | .full => 3#2

/-- The battery level with a given code; all four codes are legal (R42). -/
def BatLevel.ofCode (v : BitVec 2) : BatLevel :=
  if v = 0#2 then .none else if v = 1#2 then .low else if v = 2#2 then .medium else .full

/-- The decoder: total on all request words. Bits of `arg` an operation does not use are ignored (R39, R41, R42). -/
def decode (w : ReqWord) : Except DecodeError Instr :=
  if opField w = 0b000#3 then .ok (.cmd (lane (argField w) 0))
  else if opField w = 0b001#3 then .ok (.ldg (lanes (argField w)))
  else if opField w = 0b010#3 then .ok (.dot (lane (argField w) 0))
  else if opField w = 0b011#3 then .ok (.bat (BatLevel.ofCode ((argField w).extractLsb' 0 2)))
  else if opField w = 0b100#3 then .ok .clr
  else .error (.reservedOp (opField w))

/-- The encoder: `op ‖ arg` with every bit of `arg` outside the operands written as 0 (R49). A lane of `LDG` is written
whole, its ignored bit 7 with it, as vectors L2 and P3 step 2 write it (DESIGN CHOICE, log 21). -/
def encode : Instr → ReqWord
  | .cmd opcode => 0b000#3 ++ 0#40 ++ opcode
  | .ldg g => 0b001#3 ++ byteAt g 5 ++ byteAt g 4 ++ byteAt g 3 ++ byteAt g 2 ++ byteAt g 1 ++ byteAt g 0
  | .dot p => 0b010#3 ++ 0#40 ++ p
  | .bat level => 0b011#3 ++ 0#46 ++ level.code
  | .clr => 0b100#3 ++ 0#48

/-- The bits of a request word that hold an operation's code and its operands (R39 to R42). A lane of `LDG` counts whole: its
bit 7, which R40 ignores, stays in the instruction and only the meaning drops it (DESIGN CHOICE, log 21). -/
def usedBits : Instr → ReqWord
  | .cmd _ => 0x70000000000FF#51
  | .ldg _ => 0x7FFFFFFFFFFFF#51
  | .dot _ => 0x70000000000FF#51
  | .bat _ => 0x7000000000003#51
  | .clr => 0x7000000000000#51

/-- The instruction an assembler line stands for; none where a number is out of the range R49 gives. -/
def assemble (a : AsmLine) : Option Instr :=
  if a.wellFormed then
    match a with
    | .cmd opcode => some (.cmd (BitVec.ofNat 8 opcode))
    | .ldg g => some (.ldg (Vector.ofFn fun i => BitVec.ofNat 8 (g.getD i 0)))
    | .dot p => some (.dot (BitVec.ofNat 8 p))
    | .bat level => some (.bat (BatLevel.ofCode (BitVec.ofNat 2 level)))
    | .clr => some .clr
  else none

/-- The request word among `nbits` bits numbered as opcode_table.json numbers them; none where a bit above 50 is set,
since a request has 51 bits and one length (R37). DESIGN CHOICE, log 13; safe. -/
def requestOfTableWord (nbits w : Nat) : Option ReqWord :=
  if w % 2 ^ nbits < 2 ^ 51 then some (BitVec.ofNat 51 (w % 2 ^ nbits)) else none

/-- The instruction the decoder reads from a table word. -/
def decodeTableWord (nbits w : Nat) : Option Instr :=
  match requestOfTableWord nbits w with
  | some r =>
    match decode r with
    | .ok i => some i
    | .error _ => none
  | none => none

end Sys2Proof
end

