-- ==== Sys2Proof/Machine/State.lean ====
section
/-! DEFINITION. The state of the block as plain data (10_state.md R13 to R24), the reasons it can stop, and reset. -/

namespace Sys2Proof.Machine

/-- An event of the output trace (00_scope.md R12). -/
inductive Event where
  /-- `CS(l)`: the chip-select line is driven to `l`; active low. -/
  | cs (l : Bit)
  /-- `CLK(l)`: the clock line is driven to `l`. -/
  | clk (l : Bit)
  /-- `DATA(l)`: the data line is driven to `l`. -/
  | data (l : Bit)
  /-- `BULK(s, n)`: one bulk transfer of the byte sequence `s` of length `n`. -/
  | bulk (bytes : List Byte) (n : Nat)
deriving DecidableEq, Repr

/-- The strap `TXMODE` (R18). -/
inductive TxMode where
  /-- `BITBANG` = 0: clock and data driven bit by bit (R56). -/
  | bitbang
  /-- `BULK` = 1: one bulk transfer a frame (R55). -/
  | bulk
deriving DecidableEq, Repr

/-- The last driven level of each output line (R19). No operation reads one. -/
structure Lines where
  /-- `cs_level`. With `CS_PRESENT = 0` no event drives it and it keeps its reset value (log 19). -/
  cs : Bit
  /-- `clk_level`. -/
  clk : Bit
  /-- `data_level`. -/
  data : Bit
deriving DecidableEq, Repr

/-- A move of the host (R10, R37, R91). The stream of moves is the host's, not the block's (R11, R16); log 8. -/
inductive HostMove where
  /-- A request issued after the previous one has completed. -/
  | request (w : ReqWord)
  /-- A request issued while the previous one is still in progress (R91), to which the spec gives no meaning.
  The move stands after the request it overlaps, which the model has then completed: the model's choice, log 9. -/
  | overlap (w : ReqWord)
deriving DecidableEq, Repr

/-- The reasons to stop with a fault: none. The block raises no exception and records no fault (60_exceptions.md R77;
93_implementation_defined.md: "`fault` is never used"). Nobody raises one, which is safe: a refusal is the only stop. -/
inductive Fault : Type
deriving DecidableEq, Repr

/-- The reasons the model gives no meaning. Each is a stop, hence safe. -/
inductive Refusal where
  /-- An instruction with no meaning yet, by its mnemonic: raised by `exec`'s arms only; no arm raises it now. Safe. -/
  | notModelled (mnemonic : String)
  /-- A request with a reserved operation code (R43, R86): raised by `step`. The block itself ignores it; safe. -/
  | reservedOperation (op : BitVec 3)
  /-- A request issued while another is in progress (R86, R91): raised by `step`. Safe as a stop; that the overlapped
  request completed in the step before is the model's choice, unsafe (log 9). -/
  | overlappingRequest
  /-- An ill-formed configuration (R7, R86): raised by `State.construct`. Safe. -/
  | illFormedConfig
  /-- `BITBANG` without a clock or a data line (93_implementation_defined.md U7, D17): raised by `State.construct`. Safe. -/
  | bitbangWithoutLine
deriving DecidableEq, Repr

/-- The state of the block, with the configuration it was built from and the host's moves to come. -/
structure State where
  /-- The construction parameters: fixed for the instance, no state of the block (R11; log 1). -/
  cfg : Config
  /-- `TXMODE` (R18): a strap, never written after construction. -/
  txmode : TxMode
  /-- `CS_PRESENT` (R18): a strap; `true` is 1, a chip-select line exists. -/
  csPresent : Bool
  /-- `BUF[0]` to `BUF[5]` (R13). -/
  buf : SixBytes
  /-- The last driven line levels (R19). -/
  lines : Lines
  /-- The output trace, oldest event first (R22). -/
  trace : List Event
  /-- The model's own field: the host's moves still to come, next first (log 8). -/
  requests : List HostMove
deriving DecidableEq, Repr

/-- The state right after construction with these parameters, straps and undriven line levels: `BUF` zero, `CS`
released, the trace empty (R23, 70_reset_and_hazards.md R87, R88). -/
def State.afterReset (cfg : Config) (txmode : TxMode) (csPresent : Bool) (clk data : Bit) : State :=
  { cfg := cfg, txmode := txmode, csPresent := csPresent
    buf := #v[0#8, 0#8, 0#8, 0#8, 0#8, 0#8]
    lines := { cs := true, clk := clk, data := data }
    trace := [], requests := [] }

/-- The block right after reset, with nothing issued yet. The values R23 leaves to the construction are the spec's
defaults: `CFG_DOC` (log 2 to 5), `TXMODE = BULK`, `CS_PRESENT = 1` (log 6; the configuration 95_test_vectors.md
uses); the undriven `CLK` and `DATA` levels are 0 (log 7). DESIGN CHOICE and PRESUMED; unsafe. `State.construct` (Ops.lean) gives every other one. -/
def State.reset : State := State.afterReset Config.doc .bulk true false false

end Sys2Proof.Machine
end

