-- ==== Sys2Proof/Machine/Ops.lean ====
section
/-! DEFINITION. The named operations over the state: masked buffer writes, emission of events, the host's next move, construction.

The spec describes no exception, interrupt, trap entry or trap return (60_exceptions.md R77, R79, R81, R82), so there is no
operation for one here; and no addressable memory (R12, R20, R34), so there is none for that. -/

namespace Sys2Proof.Machine

/-! ### The segment buffer -/

/-- The buffer indices in the order `for i in 0..5` runs (R12). -/
def positions : List Pos := [0, 1, 2, 3, 4, 5]

/-- `mask_write(i, clr, set)`: `BUF[i] <- (BUF[i] & ~clr) | set`, the form of every buffer write (41_buffer_mux.md R63). -/
def maskWrite (buf : SixBytes) (i : Pos) (clr set : Byte) : SixBytes :=
  buf.set i ((byteAt buf i &&& ~~~clr) ||| set)

/-- The state with its buffer replaced by the result of an operation's writes. -/
def State.withBuf (s : State) (buf : SixBytes) : State := { s with buf := buf }

/-! ### The output lines and the trace -/

/-- The line levels after an event: a line keeps its level until driven again (10_state.md R19). -/
def Lines.drive (l : Lines) : Event → Lines
  | .cs v => { l with cs := v }
  | .clk v => { l with clk := v }
  | .data v => { l with data := v }
  | .bulk _ _ => l

/-- `emit e`: the event is appended to the trace and drives its line (R12, R19). -/
def emit (s : State) (e : Event) : State :=
  { s with lines := s.lines.drive e, trace := s.trace ++ [e] }

/-- Emits a list of events in order. -/
def emitAll (s : State) (es : List Event) : State :=
  { s with lines := es.foldl Lines.drive s.lines, trace := s.trace ++ es }

/-! ### The host -/

/-- The host's next move, if it makes one, and the state once it is taken (R10; log 8). -/
def nextMove (s : State) : Option (HostMove × State) :=
  match s.requests with
  | [] => none
  | m :: rest => some (m, { s with requests := rest })

/-- The host issues a request next, before the moves already listed. -/
def State.issue (s : State) (w : ReqWord) : State := { s with requests := .request w :: s.requests }

/-- The numeric code of the strap `TXMODE` (R18). -/
def TxMode.code : TxMode → BitVec 1
  | .bitbang => 0#1
  | .bulk => 1#1

/-- What whoever builds the block chooses (R9, R18, R87), with the lines that are connected. -/
structure Build where
  /-- The parameters of 00_scope.md section 3. -/
  params : Params
  /-- The strap `TXMODE`. -/
  txmode : TxMode
  /-- A chip-select line exists: the strap `CS_PRESENT`. -/
  csLine : Bool
  /-- A clock line is supplied. -/
  clkLine : Bool
  /-- A data line is supplied. -/
  dataLine : Bool
  /-- The level of `CLK` before it is first driven, any value (R23, P7). -/
  clkBefore : Bit
  /-- The level of `DATA` before it is first driven, any value (R23, P7). -/
  dataBefore : Bit
deriving DecidableEq, Repr

/-- Construction, which is reset (70_reset_and_hazards.md R87). Refused: `BITBANG` without a clock or data line (U7,
D17; log 12) and an ill-formed configuration (R7, R86, D20). -/
def State.construct (b : Build) : Host.Outcome State Fault Refusal :=
  if b.txmode = .bitbang ∧ (b.clkLine && b.dataLine) = false then .refused .bitbangWithoutLine
  else if h : b.params.wellFormed = true then
    .next (State.afterReset ⟨b.params, h⟩ b.txmode b.csLine b.clkBefore b.dataBefore)
  else .refused .illFormedConfig

end Sys2Proof.Machine
end

