-- ==== Sys2Proof/Machine/Operands.lean ====
section
/-! DEFINITION. Operand assembly (30_encoding.md R46, R47) and the overlay geometry of a configuration (00_scope.md R7, 10_state.md R15). -/

namespace Sys2Proof.Machine

/-- The index of the decimal-point bit `k` digits from the right, `DOT_BASE - k`, for `k` in 1..3 (R15). -/
def dotPos (c : Config) (k : Nat) (h : 1 ≤ k ∧ k ≤ 3) : Pos :=
  ⟨c.params.dotBase - k, by have := c.index_facts.1; omega⟩

/-- `DOTIDX`, in the order the spec lists it (R7). -/
def dotIdx (c : Config) : List Pos :=
  [dotPos c 1 (by decide), dotPos c 2 (by decide), dotPos c 3 (by decide)]

/-- `B1` (R7). -/
def bar1 (c : Config) : Pos := ⟨c.params.b1, c.index_facts.2.1.1⟩

/-- `B2` (R7). -/
def bar2 (c : Config) : Pos := ⟨c.params.b2, c.index_facts.2.1.2.1⟩

/-- `B3` (R7). -/
def bar3 (c : Config) : Pos := ⟨c.params.b3, c.index_facts.2.1.2.2⟩

/-- `BATIDX = (B1, B2, B3)` (R7). -/
def batIdx (c : Config) : List Pos := [bar1 c, bar2 c, bar3 c]

/-- The dot index of `DOT p`: `DOT_BASE - p` when `1 <= p <= 3`; no index otherwise (R47, R73). -/
def dotIndex (c : Config) (p : Byte) : Option Pos :=
  if h : 1 ≤ p.toNat ∧ p.toNat ≤ 3 then some (dotPos c p.toNat h) else none

/-- The bars of `BAT level`, cumulative: `level >= 1` adds `B1`, `level >= 2` adds `B2`, `level >= 3` adds `B3` (R47, R74). -/
def batterySet (c : Config) (level : BatLevel) : List Pos :=
  (if 1#2 ≤ level.code then [bar1 c] else []) ++ (if 2#2 ≤ level.code then [bar2 c] else []) ++
    (if 3#2 ≤ level.code then [bar3 c] else [])

/-- The glyph mask of a lane: `g[i] & 0x7F`, bit 7 dropped (R47, R69). -/
def glyphMask (g : Byte) : Byte := g &&& SEG

/-- `pair(a, b)` of the even-indexed byte `a` and the odd-indexed byte `b` (R46). -/
def pair (c : Config) (a b : Byte) : BitVec 16 :=
  match c.params.pairHigh with
  | .even => a ++ b
  | .odd => b ++ a

/-- `W0`, from `BUF[4]`, `BUF[5]` (R46). -/
def word0 (c : Config) (b : SixBytes) : BitVec 16 := pair c (byteAt b 4) (byteAt b 5)

/-- `W1`, from `BUF[2]`, `BUF[3]` (R46). -/
def word1 (c : Config) (b : SixBytes) : BitVec 16 := pair c (byteAt b 2) (byteAt b 3)

/-- `W2`, from `BUF[0]`, `BUF[1]` (R46). -/
def word2 (c : Config) (b : SixBytes) : BitVec 16 := pair c (byteAt b 0) (byteAt b 1)

end Sys2Proof.Machine
end

