-- ==== Sys2Proof/Machine/Flags.lean ====
section
/-! DEFINITION. Flags: the block has none, no status flag, condition code, busy bit or error bit (10_state.md R17), so no
flag computation stands here. What the spec calls bits with a meaning of their own are the two fields of a buffer byte
(R14), read by the functions below. -/

namespace Sys2Proof.Machine

/-- `ov`, bit 7 of a buffer byte: a decimal point or a battery bar, by the index of the byte (R14, R15). -/
def ov (b : Byte) : Bit := b.getLsbD 7

/-- `seg`, bits 6:0 of a buffer byte: the glyph (R14). -/
def seg (b : Byte) : BitVec 7 := b.extractLsb' 0 7

/-- The decimal-point bits of a buffer, `p = 1` first (R15). -/
def dotBits (c : Config) (b : SixBytes) : List Bit := (dotIdx c).map fun i => ov (byteAt b i)

/-- The battery bits of a buffer, `B1` first (R15). -/
def batteryBits (c : Config) (b : SixBytes) : List Bit := (batIdx c).map fun i => ov (byteAt b i)

end Sys2Proof.Machine
end

