-- ==== Sys2Proof/Machine/Framers.lean ====
section
/-! DEFINITION. The framers, the output stage and `CMD` (40_framers.md; formats 30_encoding.md R44 to R46; order 20_memory.md R25 to R28). -/

namespace Sys2Proof.Machine

/-! ### Pure functions -/

/-- `le_image_k(V)`: the bytes of `V`, least-significant first, `S[j] = V[8j+7 : 8j]` (R12, R25 step 2). -/
def leImage (k : Nat) (v : BitVec (8 * k)) : List Byte :=
  (List.range k).map fun j => v.extractLsb' (8 * j) 8

/-- `reverse(s)`: the byte order reversed, the bits inside each byte untouched (R53, R25 step 3). -/
def reverseBytes (s : List Byte) : List Byte := s.reverse

/-- The container of a command frame, `CMD_TAG ‖ opcode ‖ CMD_PAD` (R44). -/
def cmdContainer (c : Config) (opcode : Byte) : BitVec 16 :=
  c.params.cmdTag ++ opcode ++ c.params.cmdPad

/-- The container of a data frame, `DATA_TAG ‖ ADDR ‖ W0 ‖ W1 ‖ W2 ‖ DATA_PAD` (R45). -/
def dataContainer (c : Config) (b : SixBytes) : BitVec 64 :=
  c.params.dataTag ++ ADDR ++ word0 c b ++ word1 c b ++ word2 c b ++ c.params.dataPad

/-- `enc_cmd(opcode)`, the emitted bytes of a command frame (R51). -/
def encCmd (c : Config) (opcode : Byte) : List Byte := reverseBytes (leImage 2 (cmdContainer c opcode))

/-- `enc_data(b)`, the emitted bytes of a data frame (R52). -/
def encData (c : Config) (b : SixBytes) : List Byte := reverseBytes (leImage 8 (dataContainer c b))

/-! ### The output stage -/

/-- The bits of a byte in wire order, bit 7 first (R26, R56). -/
def bitsOfByte (b : Byte) : List Bit :=
  [b.getLsbD 7, b.getLsbD 6, b.getLsbD 5, b.getLsbD 4, b.getLsbD 3, b.getLsbD 2, b.getLsbD 1, b.getLsbD 0]

/-- The bits of a byte sequence in wire order (R26). -/
def bitsOfBytes (s : List Byte) : List Bit := s.flatMap bitsOfByte

/-- The events of one bit: clock low, data set, clock high; `DATA` also when the level does not change (R56). -/
def bitEvents (x : Bit) : List Event := [.clk false, .data x, .clk true]

/-- `emit_bits(E, n)`: bytes in index order, bits from 7 down to 0, three events a bit (R56). -/
def bitbangEvents (e : List Byte) : List Event := (bitsOfBytes e).flatMap bitEvents

/-- `emit_bulk(E, n)`: one event carrying the whole frame with its length (R55). -/
def bulkEvents (e : List Byte) : List Event := [.bulk e e.length]

/-- The events of a frame between the chip-select edges, by `TXMODE` (R54). -/
def bodyEvents (tx : TxMode) (e : List Byte) : List Event :=
  match tx with
  | .bulk => bulkEvents e
  | .bitbang => bitbangEvents e

/-- The events of one frame: chip-select low, the body, chip-select high; no `CS` event where no line exists (R54, R57). -/
def frameEvents (tx : TxMode) (csPresent : Bool) (e : List Byte) : List Event :=
  (if csPresent then [.cs false] else []) ++ bodyEvents tx e ++ (if csPresent then [.cs true] else [])

/-- `transmit(E, n)`: emits one frame under the block's straps (R54). -/
def transmit (s : State) (e : List Byte) : State := emitAll s (frameEvents s.txmode s.csPresent e)

/-- `flush`: one data frame of the whole buffer as it stands (R59, R36). -/
def flush (s : State) : State := transmit s (encData s.cfg s.buf)

/-! ### The operation -/

/-- `CMD`: emit one command frame; the buffer is not read and not written (R58). -/
def execCmd (opcode : Byte) (s : State) : Host.Outcome State Fault Refusal :=
  .next (transmit s (encCmd s.cfg opcode))

end Sys2Proof.Machine
end

