-- ==== Sys2Proof/Machine/BufferMux.lean ====
section
/-! DEFINITION. The segment-buffer mux and the operations `LDG`, `DOT`, `BAT`, `CLR` (41_buffer_mux.md R63 to R76). -/

namespace Sys2Proof.Machine

/-! ### Micro-operations -/

/-- `clr_letters`: every glyph bit and every decimal-point bit cleared, every battery bit kept (R65; conflicts C2, C3). -/
def clrLetters (c : Config) (buf : SixBytes) : SixBytes :=
  positions.foldl (fun b i => if i ∈ dotIdx c then maskWrite b i 0xFF#8 0#8 else maskWrite b i SEG 0#8) buf

/-- `clr_dots`: the three decimal-point bits cleared (R66). -/
def clrDots (c : Config) (buf : SixBytes) : SixBytes :=
  (dotIdx c).foldl (fun b i => maskWrite b i OV 0#8) buf

/-- `clr_battery`: the three battery bits cleared (R67). -/
def clrBattery (c : Config) (buf : SixBytes) : SixBytes :=
  (batIdx c).foldl (fun b i => maskWrite b i OV 0#8) buf

/-- `set_ov(i)`: the overlay bit of byte `i` set (R68). -/
def setOv (buf : SixBytes) (i : Pos) : SixBytes := maskWrite buf i 0#8 OV

/-- `or_glyph(i, g)`: the seven glyph bits of `g` ORed into byte `i` (R69). -/
def orGlyph (buf : SixBytes) (i : Pos) (g : Byte) : SixBytes := maskWrite buf i 0#8 (glyphMask g)

/-! ### What each operation leaves in the buffer -/

/-- The buffer writes of `LDG` (R72). -/
def ldgBuf (c : Config) (g : SixBytes) (buf : SixBytes) : SixBytes :=
  positions.foldl (fun b i => orGlyph b i (byteAt g i)) (clrLetters c buf)

/-- The buffer writes of `DOT` (R73). -/
def dotBuf (c : Config) (p : Byte) (buf : SixBytes) : SixBytes :=
  (dotIndex c p).toList.foldl setOv (clrDots c buf)

/-- The buffer writes of `BAT` (R74). -/
def batBuf (c : Config) (level : BatLevel) (buf : SixBytes) : SixBytes :=
  (batterySet c level).foldl setOv (clrBattery c buf)

/-- The buffer writes of `CLR`: battery, dots, letters (R75, D21). -/
def clrBuf (c : Config) (buf : SixBytes) : SixBytes := clrLetters c (clrDots c (clrBattery c buf))

/-- The shape of every buffer-changing operation: all its writes, then exactly one flush (R70). -/
def writeThenFlush (s : State) (buf : SixBytes) : State := flush (s.withBuf buf)

/-! ### The operations -/

/-- `LDG`: load six glyph masks, clearing the decimal point, keeping the battery level (R72). -/
def execLdg (g : SixBytes) (s : State) : Host.Outcome State Fault Refusal :=
  .next (writeThenFlush s (ldgBuf s.cfg g s.buf))

/-- `DOT`: set the decimal point (R73). -/
def execDot (p : Byte) (s : State) : Host.Outcome State Fault Refusal :=
  .next (writeThenFlush s (dotBuf s.cfg p s.buf))

/-- `BAT`: set the battery level (R74). -/
def execBat (level : BatLevel) (s : State) : Host.Outcome State Fault Refusal :=
  .next (writeThenFlush s (batBuf s.cfg level s.buf))

/-- `CLR`: blank the display (R75). -/
def execClr (s : State) : Host.Outcome State Fault Refusal :=
  .next (writeThenFlush s (clrBuf s.cfg s.buf))

end Sys2Proof.Machine
end

