-- ==== Sys2Proof/Machine/Dispatch.lean ====
section
/-! DEFINITION. One arm per operation (30_encoding.md R38). -/

namespace Sys2Proof.Machine

def exec (i : Instr) (s : State) : Host.Outcome State Fault Refusal :=
  match i with
  | .cmd opcode => Sys2Proof.Machine.execCmd opcode s
  | .ldg g => Sys2Proof.Machine.execLdg g s
  | .dot p => Sys2Proof.Machine.execDot p s
  | .bat level => Sys2Proof.Machine.execBat level s
  | .clr => Sys2Proof.Machine.execClr s

end Sys2Proof.Machine
end

