-- ==== Sys2Proof/Machine/Step.lean ====
section
/-! DEFINITION. One step: the host's next move, performed as one atomic transition (00_scope.md R10). -/

namespace Sys2Proof.Machine

/-- The block performs a request word. A reserved operation code is refused (30_encoding.md R43, 60_exceptions.md R86; log 10). -/
def perform (w : ReqWord) (s : State) : Host.Outcome State Fault Refusal :=
  match decode w with
  | .ok i => exec i s
  | .error (.reservedOp op) => .refused (.reservedOperation op)

/-- One step. Where the host makes no move nothing happens: the block starts nothing by itself (R10, R79; log 8). A request
that overlaps another is refused (R86, R91). DESIGN CHOICE (log 9), a point the spec leaves open: the request that is being
overlapped completes in its own step, buffer and whole frame, as if nothing overlapped it, and the run is refused at the
following step, which meets the overlap move. Unsafe for a claim about that one step. -/
def step (s : State) : Host.Outcome State Fault Refusal :=
  match nextMove s with
  | none => .next s
  | some (.request w, s') => perform w s'
  | some (.overlap _, _) => .refused .overlappingRequest

/-- The state in which the host issues this table word as its next request (log 8, log 13). A word that is no 51-bit
request cannot be issued, and changes nothing. -/
def State.withFetchWord (s : State) (nbits w : Nat) : State :=
  match requestOfTableWord nbits w with
  | some r => s.issue r
  | none => s

end Sys2Proof.Machine
end

