-- ==== Sys2Proof/Machine/Pseudo.lean ====
section
/-! DEFINITION. The host's pseudo-instructions of 30_encoding.md R50: sequences of requests, composed outside the block.

The glyph table is the host's and no value of it is in the source (00_scope.md R4), so it is an argument here (log 18). -/

namespace Sys2Proof.Machine

/-- `INIT`: the six chip commands in the order of R50 and 70_reset_and_hazards.md R89. -/
def initSeq (o : ChipOpcodes) : List Instr :=
  [.cmd o.bias, .cmd o.rc, .cmd o.sysDis, .cmd o.wdtDis, .cmd o.sysEn, .cmd o.lcdOn]

/-- `DISPON` (R50). -/
def dispOn (o : ChipOpcodes) : List Instr := [.cmd o.lcdOn]

/-- `DISPOFF` (R50). -/
def dispOff (o : ChipOpcodes) : List Instr := [.cmd o.lcdOff]

/-- `PRINT_TEXT s`: one `LDG` of the glyphs of the first six characters, blank for a missing one (R50). -/
def printText (glyph : Char → Byte) (text : List Char) : List Instr :=
  [.ldg (Vector.ofFn fun i => match text[i.val]? with | some ch => glyph ch | none => 0#8)]

/-- The integer range that fits the display: 999999 down to -99999 (R4). -/
def clampInt (n : Int) : Int := max (-99999) (min 999999 n)

/-- The right-aligned six-character decimal text of a clamped integer (R4, R50, 41_buffer_mux.md R71). -/
def decimalText (n : Int) : List Char :=
  let digits := (toString (clampInt n)).toList
  List.replicate (numPositions - digits.length) ' ' ++ digits

/-- `PRINT_INT n` (R50). -/
def printInt (glyph : Char → Byte) (n : Int) : List Instr := printText glyph (decimalText n)

/-- `trunc(x * 10^d)` of the fraction `x = num / den` (R50). -/
def truncScaled (num : Int) (den d : Nat) : Int := (num * 10 ^ d).tdiv den

/-- `PRINT_FLOAT x, d`: the scaled integer, then the point (R50). `d` is the precision after the host's clamping by
sign, whose bounds the source does not give (R4; log 18). -/
def printFloat (glyph : Char → Byte) (num : Int) (den : Nat) (d : Byte) : List Instr :=
  printInt glyph (truncScaled num den d.toNat) ++ [.dot d]

end Sys2Proof.Machine
end

