-- ==== Sys2Proof/Safety.lean ====
section
/-! DEFINITION. What a safe state and a well-behaved host are, in terms of the buffer and the output trace.

The functions over a trace say what an observer of the lines sees; no operation of the block reads them (10_state.md R22). -/

namespace Sys2Proof.Machine

/-! ### What the lines carry -/

/-- The bits of a value in wire order, most-significant first (20_memory.md R27). -/
def msbBits {n : Nat} (v : BitVec n) : List Bit := (List.range n).map fun k => v.getLsbD (n - 1 - k)

/-- The bits a receiver takes from a list of events, the data line standing at `d` before it: the `DATA` level at each
`CLK(1)` (40_framers.md R57), and the bytes of a bulk transfer in index order, most-significant bit first, as
70_reset_and_hazards.md R95 asks of the transport (log 17). -/
def sampled : Bit → List Event → List Bit
  | _, [] => []
  | d, .cs _ :: es => sampled d es
  | d, .clk l :: es => if l then d :: sampled d es else sampled d es
  | _, .data l :: es => sampled l es
  | d, .bulk bytes n :: es => bitsOfBytes (bytes.take n) ++ sampled d es

/-- The frames a receiver on the bus takes from a trace: the bits between a `CS(0)` and the next `CS(1)` (30_encoding.md
R48). `cur` is the frame being received, `d` the data level. -/
def deframe : Option (List Bit) → Bit → List Event → List (List Bit)
  | _, _, [] => []
  | cur, d, .cs l :: es =>
    if l then
      match cur with
      | some bits => bits :: deframe none d es
      | none => deframe none d es
    else deframe (some []) d es
  | cur, d, .clk l :: es => deframe (if l then cur.map (· ++ [d]) else cur) d es
  | cur, _, .data l :: es => deframe cur l es
  | cur, d, .bulk bytes n :: es => deframe (cur.map (· ++ bitsOfBytes (bytes.take n))) d es

/-- The last data frame a receiver took: the last one of 64 bits (R48: the length tells the kinds apart). -/
def lastDataFrame (trace : List Event) : Option (List Bit) :=
  ((deframe none false trace).filter fun f => f.length = 64).getLast?

/-! ### The discipline of the trace -/

/-- `CS(0)` and `CS(1)` alternate, starting with `CS(0)` and ending released, and every other event lies between a
`CS(0)` and the next `CS(1)` (R92; 95_test_vectors.md section 4, property 9). The argument says whether `CS` is low. -/
def bracketed : Bool → List Event → Bool
  | low, [] => !low
  | low, .cs l :: es => if l then low && bracketed false es else !low && bracketed true es
  | low, .clk _ :: es => low && bracketed low es
  | low, .data _ :: es => low && bracketed low es
  | low, .bulk _ _ :: es => low && bracketed low es

/-- Where the clock and data lines stand inside a bit (R56). -/
inductive BitPhase where
  /-- Between two bits. -/
  | between
  /-- The clock is low and the data line is not yet set. -/
  | clockLow
  /-- The clock is low and the data line is set. -/
  | dataSet
deriving DecidableEq, Repr

/-- The clock alternates 0, 1 and each `DATA` lies between a `CLK(0)` and the following `CLK(1)`, no other event inside a
bit (R56; 95_test_vectors.md section 4, property 10). -/
def clocked : BitPhase → List Event → Bool
  | ph, [] => ph == .between
  | ph, .cs _ :: es => ph == .between && clocked .between es
  | ph, .clk l :: es => if l then ph == .dataSet && clocked .between es else ph == .between && clocked .clockLow es
  | ph, .data _ :: es => ph == .clockLow && clocked .dataSet es
  | ph, .bulk _ _ :: es => ph == .between && clocked .between es

/-- The events the straps allow: no `CS` without a chip-select line (R57), no `BULK` in `BITBANG` mode, no `CLK` or
`DATA` in `BULK` mode (R55, R56), and a bulk transfer says its own length (R12). -/
def eventFits (tx : TxMode) (csPresent : Bool) : Event → Bool
  | .cs _ => csPresent
  | .clk _ => tx == .bitbang
  | .data _ => tx == .bitbang
  | .bulk bytes n => tx == .bulk && n == bytes.length

/-! ### Safe states -/

/-- At most one decimal-point bit is set, and the set of lit bars is one of {}, {B1}, {B1, B2}, {B1, B2, B3}
(41_buffer_mux.md R76 b, c). -/
def OverlayOk (s : State) : Prop :=
  (dotBits s.cfg s.buf).count true ≤ 1 ∧
    batteryBits s.cfg s.buf ∈
      [[false, false, false], [true, false, false], [true, true, false], [true, true, true]]

/-- The trace keeps the order of events the spec gives, whatever the straps (R54 to R57, R92). -/
def TraceOk (s : State) : Prop :=
  (∀ e ∈ s.trace, eventFits s.txmode s.csPresent e = true) ∧ clocked .between s.trace = true ∧
    (s.csPresent = true → bracketed false s.trace = true)

/-- Each line stands at the level last driven on it, from a released chip-select and any level of the other two at reset
(10_state.md R19, R23). -/
def LinesOk (s : State) : Prop :=
  ∃ before : Lines, before.cs = true ∧ s.lines = s.trace.foldl Lines.drive before

/-- The last data frame the bus carried, if there was one, shows the buffer as it stands (R22, R33, R94), where
chip-select delimits the frames. -/
def ChipOk (s : State) : Prop :=
  s.csPresent = true → ∀ f, lastDataFrame s.trace = some f → f = bitsOfBytes (encData s.cfg s.buf)

/-- A safe state. -/
structure Safe (s : State) : Prop where
  overlay : OverlayOk s
  trace : TraceOk s
  lines : LinesOk s
  chip : ChipOk s

/-- A state the block can reach: built, given moves by the host, stepped. -/
inductive Reachable : State → Prop
  /-- Construction answers it. -/
  | built {b : Build} {s : State} (h : State.construct b = .next s) : Reachable s
  /-- The host chooses its moves. -/
  | hosted {s : State} (moves : List HostMove) (h : Reachable s) : Reachable { s with requests := moves }
  /-- A step leads to it. -/
  | stepped {s t : State} (h : Reachable s) (hs : step s = .next t) : Reachable t

/-! ### The host's duties -/

/-- The host makes no move this spec gives no meaning to: no overlapping request and no reserved operation code (R86). -/
def wellBehaved : List HostMove → Bool
  | [] => true
  | .request w :: ms => decide ((opField w).toNat ≤ 4) && wellBehaved ms
  | .overlap _ :: _ => false

/-- The requests of a list of instructions, each issued after the one before has completed. -/
def requestsOf (is : List Instr) : List HostMove := is.map fun i => .request (encode i)

/-- The initialisation of R89 comes first. A premise for a claim about the glass (R90); the block checks no order. -/
def initFirst (o : ChipOpcodes) (is : List Instr) : Bool := (initSeq o).isPrefixOf is

end Sys2Proof.Machine
end

