-- ==== Sys2Proof/Certificates/Slice0/Obligations.lean ====
section
/-! DEFINITION. The statements for the provers, file by file of the spec. Each holds for every well-formed configuration and
both values of each strap unless it says otherwise; a statement that names default tag or layout values says so. -/

open Sys2Proof Sys2Proof.Machine

/-! ### The request word (30_encoding.md) -/

/-- Words written out from the spec's encoding decode to the instruction they stand for (95_test_vectors.md section 2). -/
def Obligations.SpecWordsDecodeToTheirInstruction : Prop :=
  decode 0x0000000000006#51 = .ok (.cmd 0x06#8) ∧
  decode 0x0ABCDEF123452#51 = .ok (.cmd 0x52#8) ∧
  decode 0x1003F38387976#51 = .ok (.ldg #v[0x76#8, 0x79#8, 0x38#8, 0x38#8, 0x3F#8, 0x00#8]) ∧
  decode 0x2000000000002#51 = .ok (.dot 2#8) ∧
  decode 0x2FFFFFFFFFF02#51 = .ok (.dot 2#8) ∧
  decode 0x3000000000003#51 = .ok (.bat .full) ∧
  decode 0x3FFFFFFFFFFFE#51 = .ok (.bat .medium) ∧
  decode 0x4FFFFFFFFFFFF#51 = .ok .clr ∧
  decode 0x5000000000000#51 = .error (.reservedOp 0b101#3) ∧
  decode 0x7FFFFFFFFFFFF#51 = .error (.reservedOp 0b111#3)

/-- Which operation a request word selects and where its operands lie, for every word (R37 to R43). -/
def Obligations.OperationCodeSelectsOperationAndOperands : Prop :=
  ∀ w : ReqWord,
    (w.extractLsb' 48 3 = 0b000#3 → decode w = .ok (.cmd (w.extractLsb' 0 8))) ∧
    (w.extractLsb' 48 3 = 0b001#3 →
      ∃ g, decode w = .ok (.ldg g) ∧ ∀ i : Pos, byteAt g i = w.extractLsb' (8 * i) 8) ∧
    (w.extractLsb' 48 3 = 0b010#3 → decode w = .ok (.dot (w.extractLsb' 0 8))) ∧
    (w.extractLsb' 48 3 = 0b011#3 →
      ∃ level : BatLevel, decode w = .ok (.bat level) ∧ level.code = w.extractLsb' 0 2) ∧
    (w.extractLsb' 48 3 = 0b100#3 → decode w = .ok .clr) ∧
    (5 ≤ (w.extractLsb' 48 3).toNat → decode w = .error (.reservedOp (w.extractLsb' 48 3)))

/-- Decoding an encoded instruction gives it back, for every instruction and every value of its operands. -/
def Obligations.DecodeOfEncodeIsTheInstruction : Prop :=
  ∀ i : Instr, decode (encode i) = .ok i

/-- Encoding a decoded word gives the word with the bits of `arg` outside the operands written as 0 (R49), the bits that
R39, R41 and R42 ignore. A lane of `LDG` is an operand and is kept whole, also its bit 7, which R40 ignores and R49's
words would clear: the model's choice (log 21), as vector L2 and step 2 of program P3 write such words. -/
def Obligations.EncodeOfDecodeClearsIgnoredBits : Prop :=
  ∀ (w : ReqWord) (i : Instr), decode w = .ok i → encode i = w &&& usedBits i

/-- The bits of `arg` an operation does not use are ignored: a word that agrees on the used bits is the same request
(R39, R41, R42). -/
def Obligations.IgnoredBitsDoNotMatter : Prop :=
  ∀ (v w : ReqWord) (i : Instr), decode w = .ok i → v &&& usedBits i = w &&& usedBits i → decode v = .ok i

/-- The request word of each assembler line as a number (R49): the operation code times 2^48 plus the operands in place. A
lane of `LDG` is kept whole (log 21). -/
def Obligations.AssembledWordsAreCodeAndOperands : Prop :=
  (∀ p, p < 256 → (assemble (.cmd p)).map (fun i => (encode i).toNat) = some p) ∧
  (∀ g0 g1 g2 g3 g4 g5, g0 < 256 → g1 < 256 → g2 < 256 → g3 < 256 → g4 < 256 → g5 < 256 →
    (assemble (.ldg [g0, g1, g2, g3, g4, g5])).map (fun i => (encode i).toNat) =
      some (2 ^ 48 + g0 + 2 ^ 8 * g1 + 2 ^ 16 * g2 + 2 ^ 24 * g3 + 2 ^ 32 * g4 + 2 ^ 40 * g5)) ∧
  (∀ p, p < 256 → (assemble (.dot p)).map (fun i => (encode i).toNat) = some (2 * 2 ^ 48 + p)) ∧
  (∀ level, level < 4 → (assemble (.bat level)).map (fun i => (encode i).toNat) = some (3 * 2 ^ 48 + level)) ∧
  (assemble .clr).map (fun i => (encode i).toNat) = some (4 * 2 ^ 48)

/-! ### Steps, construction, configuration (00_scope.md, 60_exceptions.md, 70_reset_and_hazards.md) -/

/-- One step performs the host's next request: exactly `exec` of the decoded instruction, on the state with that request
taken. `withFetchWord` places a request so that the next step runs it. The model's choices: the moves in State and the idle step
(log 8), table words (log 13), and that a request completes also where the move after it overlaps it (log 9). -/
def Obligations.StepRunsTheDecodedRequest : Prop :=
  (∀ (s : State) (w : ReqWord) (rest : List HostMove) (i : Instr),
    s.requests = .request w :: rest → decode w = .ok i → step s = exec i { s with requests := rest }) ∧
  (∀ (s : State) (nbits w : Nat) (i : Instr),
    decodeTableWord nbits w = some i → step (s.withFetchWord nbits w) = exec i s) ∧
  (∀ s : State, s.requests = [] → step s = .next s)

/-- A step is refused exactly for a reserved operation code or an overlapping request, each by its name; nothing else is
refused and no step faults (R77, R86). The overlap move, met after the request it overlaps has completed, is log 9. -/
def Obligations.StepRefusesOnlyReservedAndOverlapping : Prop :=
  (∀ s : State, step s = .refused .overlappingRequest ↔ ∃ w rest, s.requests = .overlap w :: rest) ∧
  (∀ (s : State) (op : BitVec 3), step s = .refused (.reservedOperation op) ↔
    ∃ w rest, s.requests = .request w :: rest ∧ w.extractLsb' 48 3 = op ∧ 5 ≤ op.toNat) ∧
  (∀ (s : State) (r : Refusal), step s = .refused r → r = .overlappingRequest ∨ ∃ op, r = .reservedOperation op) ∧
  (∀ (s : State) (f : Fault), step s ≠ .fault f)

/-- A block can be built exactly from a well-formed configuration with the lines its mode needs (R7, R86; U7 and D17 for
the lines, D20 and log 11 for the range of `DOT_BASE`). -/
def Obligations.ConstructionNeedsAWellFormedConfiguration : Prop :=
  ∀ b : Build,
    (∃ s, State.construct b = .next s) ↔
      ((b.txmode = .bitbang → b.clkLine = true ∧ b.dataLine = true) ∧
        3 ≤ b.params.dotBase ∧ b.params.dotBase ≤ 6 ∧
        [b.params.b1, b.params.b2, b.params.b3].Nodup ∧
        ∀ i ∈ [b.params.b1, b.params.b2, b.params.b3], i < 6 ∧
          i ∉ [b.params.dotBase - 1, b.params.dotBase - 2, b.params.dotBase - 3])

/-- Reset fixes the straps to the chosen values, zeroes the six bytes, leaves `CS` released, and the block then accepts
requests (R87). The trace is empty: R88, the spec's own decision D18 (log 16). The parameters are the chosen ones: the
field `cfg` is the model's (log 1, DESIGN CHOICE). -/
def Obligations.ConstructionLeavesTheResetState : Prop :=
  ∀ (b : Build) (s : State), State.construct b = .next s →
    s.txmode = b.txmode ∧ s.csPresent = b.csLine ∧ s.cfg.params = b.params ∧
    (∀ i : Pos, byteAt s.buf i = 0x00#8) ∧ s.lines.cs = true ∧ s.trace = [] ∧
    ∀ i : Instr, ∃ t, exec i s = .next t

/-- The dot indices and the battery indices are three each, and partition the six positions (R7, R15). The range of
`DOT_BASE` is deduced (log 11). -/
def Obligations.OverlayIndicesPartitionThePositions : Prop :=
  ∀ (c : Config) (i : Pos),
    (dotIdx c).Nodup ∧ (batIdx c).Nodup ∧ (dotIdx c).length = 3 ∧ (batIdx c).length = 3 ∧
    (i ∈ dotIdx c ↔ i ∉ batIdx c)

/-! ### Frames (30_encoding.md R44 to R46, 40_framers.md R51 to R53, R60, R61) -/

/-- `enc_cmd` with explicit shift and mask, its corner cases, and that different opcodes give different frames (R51). -/
def Obligations.CommandFrameBytes : Prop :=
  (∀ (c : Config) (x : BitVec 8), encCmd c x =
    [((c.params.cmdTag.setWidth 8) <<< 4) ||| (x >>> 4), ((x &&& 0x0F#8) <<< 4) ||| c.params.cmdPad.setWidth 8]) ∧
  (∀ (c : Config) (x : Byte), encCmd c x =
    reverseBytes [(c.params.cmdTag ++ x ++ c.params.cmdPad).extractLsb' 0 8,
      (c.params.cmdTag ++ x ++ c.params.cmdPad).extractLsb' 8 8]) ∧
  (∀ (c : Config) (x y : Byte), encCmd c x = encCmd c y → x = y) ∧
  (∀ c : Config, encCmd c 0x00#8 = [c.params.cmdTag ++ 0#4, 0#4 ++ c.params.cmdPad]) ∧
  (∀ c : Config, encCmd c 0xFF#8 = [c.params.cmdTag ++ 0xF#4, 0xF#4 ++ c.params.cmdPad])

/-- `enc_data` as 64-bit shifts and ORs, the same as image and reversal of the container, its corner cases, and that
different buffers give different frames (R52). -/
def Obligations.DataFrameBytes : Prop :=
  (∀ (c : Config) (b : SixBytes), encData c b = (List.range 8).map fun j =>
    ((((c.params.dataTag.setWidth 64) <<< 61) ||| ((ADDR.setWidth 64) <<< 55) ||| (((word0 c b).setWidth 64) <<< 39) |||
      (((word1 c b).setWidth 64) <<< 23) ||| (((word2 c b).setWidth 64) <<< 7) ||| (c.params.dataPad.setWidth 64))
        >>> (56 - 8 * j)).setWidth 8) ∧
  (∀ (c : Config) (a b : SixBytes), encData c a = encData c b → a = b) ∧
  (∀ (c : Config) (b : SixBytes), encData c b = reverseBytes ((List.range 8).map fun j =>
    (c.params.dataTag ++ 0#6 ++ word0 c b ++ word1 c b ++ word2 c b ++ c.params.dataPad).extractLsb' (8 * j) 8)) ∧
  (∀ c : Config, encData c #v[0#8, 0#8, 0#8, 0#8, 0#8, 0#8] =
    [c.params.dataTag ++ 0#5, 0#8, 0#8, 0#8, 0#8, 0#8, 0#8, 0#1 ++ c.params.dataPad]) ∧
  (∀ c : Config, encData c #v[0xFF#8, 0xFF#8, 0xFF#8, 0xFF#8, 0xFF#8, 0xFF#8] =
    [c.params.dataTag ++ 0#5, 0x7F#8, 0xFF#8, 0xFF#8, 0xFF#8, 0xFF#8, 0xFF#8, 1#1 ++ c.params.dataPad])

/-- The reversed command frame is the image of a container that gives back tag, opcode and pad, so `enc_cmd` is
injective, also across configurations (R60). -/
def Obligations.CommandFrameRoundTrip : Prop :=
  (∀ (c : Config) (x : Byte), ∃ s0 s1 : Byte, reverseBytes (encCmd c x) = [s0, s1] ∧
    (s1 ++ s0).extractLsb' 12 4 = c.params.cmdTag ∧ (s1 ++ s0).extractLsb' 4 8 = x ∧
    (s1 ++ s0).extractLsb' 0 4 = c.params.cmdPad) ∧
  (∀ (c d : Config) (x y : Byte), encCmd c x = encCmd d y → x = y)

/-- The reversed data frame is the image of a container that gives back tag, address 0, the three words of the pairing
rule and the pad, so `enc_data` is injective (R61). -/
def Obligations.DataFrameRoundTrip : Prop :=
  (∀ (c : Config) (b : SixBytes), ∃ s0 s1 s2 s3 s4 s5 s6 s7 : Byte,
    reverseBytes (encData c b) = [s0, s1, s2, s3, s4, s5, s6, s7] ∧
    ∃ v : BitVec 64, v = s7 ++ s6 ++ s5 ++ s4 ++ s3 ++ s2 ++ s1 ++ s0 ∧
      v.extractLsb' 61 3 = c.params.dataTag ∧ v.extractLsb' 55 6 = 0#6 ∧
      v.extractLsb' 39 16 = pair c (byteAt b 4) (byteAt b 5) ∧
      v.extractLsb' 23 16 = pair c (byteAt b 2) (byteAt b 3) ∧
      v.extractLsb' 7 16 = pair c (byteAt b 0) (byteAt b 1) ∧ v.extractLsb' 0 7 = c.params.dataPad) ∧
  (∀ (c d : Config) (a b : SixBytes), c.params.pairHigh = d.params.pairHigh → encData c a = encData d b → a = b)

/-- The emitted bytes of both frames field by field (R44, R45): the tag leads, every buffer byte straddles two emitted bytes.
The field order is the spec's own decision (log 16). -/
def Obligations.EmittedBytesFieldByField : Prop :=
  (∀ (c : Config) (x : Byte),
    encCmd c x = [c.params.cmdTag ++ x.extractLsb' 4 4, x.extractLsb' 0 4 ++ c.params.cmdPad]) ∧
  (∀ (c : Config) (b : SixBytes), encData c b =
    [c.params.dataTag ++ 0#5, 0#1 ++ (word0 c b).extractLsb' 9 7, (word0 c b).extractLsb' 1 8,
      (word0 c b).extractLsb' 0 1 ++ (word1 c b).extractLsb' 9 7, (word1 c b).extractLsb' 1 8,
      (word1 c b).extractLsb' 0 1 ++ (word2 c b).extractLsb' 9 7, (word2 c b).extractLsb' 1 8,
      (word2 c b).extractLsb' 0 1 ++ c.params.dataPad])

/-- The order of the six buffer bytes in the container, for both values of `PAIR_HIGH` (R46). -/
def Obligations.BufferByteOrderInTheContainer : Prop :=
  (∀ (c : Config) (b : SixBytes), c.params.pairHigh = .odd →
    word0 c b = byteAt b 5 ++ byteAt b 4 ∧ word1 c b = byteAt b 3 ++ byteAt b 2 ∧ word2 c b = byteAt b 1 ++ byteAt b 0 ∧
    (dataContainer c b).extractLsb' 7 48 =
      byteAt b 5 ++ byteAt b 4 ++ byteAt b 3 ++ byteAt b 2 ++ byteAt b 1 ++ byteAt b 0) ∧
  (∀ (c : Config) (b : SixBytes), c.params.pairHigh = .even →
    word0 c b = byteAt b 4 ++ byteAt b 5 ∧ word1 c b = byteAt b 2 ++ byteAt b 3 ∧ word2 c b = byteAt b 0 ++ byteAt b 1 ∧
    (dataContainer c b).extractLsb' 7 48 =
      byteAt b 4 ++ byteAt b 5 ++ byteAt b 2 ++ byteAt b 3 ++ byteAt b 0 ++ byteAt b 1)

/-! ### The output stage (20_memory.md R27, 40_framers.md R54 to R57, 30_encoding.md R48) -/

/-- The bits on the wire are the container from its top bit down, which is the fields in order, each most-significant bit
first, in both modes and with or without a chip-select line (R27). In `BULK` mode the transport's duty of R95 is part of
`sampled` (log 17). -/
def Obligations.WireCarriesTheFieldsInOrder : Prop :=
  ∀ (c : Config) (tx : TxMode) (cs : Bool) (d : Bit),
    (∀ x : Byte, sampled d (frameEvents tx cs (encCmd c x)) = msbBits (cmdContainer c x) ∧
      msbBits (cmdContainer c x) = msbBits c.params.cmdTag ++ msbBits x ++ msbBits c.params.cmdPad) ∧
    (∀ b : SixBytes, sampled d (frameEvents tx cs (encData c b)) = msbBits (dataContainer c b) ∧
      msbBits (dataContainer c b) = msbBits c.params.dataTag ++ msbBits ADDR ++ msbBits (word0 c b) ++ msbBits (word1 c b) ++ msbBits (word2 c b) ++
        msbBits c.params.dataPad)

/-- How many events a frame has, what an absent chip-select line leaves out, and that the levels sampled at the clock's
rise are the container from its top bit down (R57; the observer is log 17). -/
def Obligations.FrameEventCounts : Prop :=
  (∀ e : List Byte, (frameEvents .bitbang true e).length = 24 * e.length + 2) ∧
  (∀ e : List Byte, (frameEvents .bulk true e).length = 3) ∧
  (∀ (tx : TxMode) (e : List Byte), frameEvents tx true e = .cs false :: frameEvents tx false e ++ [.cs true]) ∧
  (∀ (c : Config) (x : Byte), (frameEvents .bitbang true (encCmd c x)).length = 50) ∧
  (∀ (c : Config) (b : SixBytes), (frameEvents .bitbang true (encData c b)).length = 194) ∧
  (∀ (c : Config) (cs : Bool) (d : Bit) (x : Byte),
    sampled d (frameEvents .bitbang cs (encCmd c x)) = msbBits (cmdContainer c x)) ∧
  (∀ (c : Config) (cs : Bool) (d : Bit) (b : SixBytes),
    sampled d (frameEvents .bitbang cs (encData c b)) = msbBits (dataContainer c b))

/-- Each frame is inside one chip-select bracket, low before its first event and high after its last, never touched
in between, and between the edges stands one bulk transfer or the bit-banged loop (R54, R55, R56). -/
def Obligations.ChipSelectBracketsEachFrame : Prop :=
  ∀ (tx : TxMode) (e : List Byte), ∃ body : List Event,
    frameEvents tx true e = [.cs false] ++ body ++ [.cs true] ∧ frameEvents tx false e = body ∧
    (∀ l : Bit, Event.cs l ∉ body) ∧
    (tx = .bulk → body = [.bulk e e.length]) ∧
    (tx = .bitbang → body = e.flatMap fun b => [7, 6, 5, 4, 3, 2, 1, 0].flatMap fun i =>
      [.clk false, .data (b.getLsbD i), .clk true])

/-- The line levels after a frame: in `BITBANG` mode clock high and data at the last bit sent; in `BULK` mode clock and
data keep their levels; chip-select is released where there is one (R19, R56), and its stored level stays where there is none (log 19). -/
def Obligations.LineLevelsAfterAFrame : Prop :=
  (∀ (s : State) (e : List Byte) (b : Byte), s.txmode = .bitbang →
    (transmit s (e ++ [b])).lines = { cs := s.csPresent || s.lines.cs, clk := true, data := b.getLsbD 0 }) ∧
  (∀ (s : State) (e : List Byte), s.txmode = .bulk →
    (transmit s e).lines = { s.lines with cs := s.csPresent || s.lines.cs })

/-- A receiver tells the frames apart by their length, and with the default tags (log 2) by their first three bits (R48).
The observer is log 17. -/
def Obligations.ReceiverTellsFramesApart : Prop :=
  ∀ (c : Config) (tx : TxMode) (cs : Bool) (d : Bit) (x : Byte) (b : SixBytes),
    (sampled d (frameEvents tx cs (encCmd c x))).length = 16 ∧
    (sampled d (frameEvents tx cs (encData c b))).length = 64 ∧
    (c.params.cmdTag = 0b1000#4 → (sampled d (frameEvents tx cs (encCmd c x))).take 3 = [true, false, false]) ∧
    (c.params.dataTag = 0b101#3 → (sampled d (frameEvents tx cs (encData c b))).take 3 = [true, false, true])

/-! ### The operations (40_framers.md R58, 41_buffer_mux.md R72 to R75) -/

/-- `CMD` completes in every state for every opcode: it emits exactly one command frame and leaves everything else as it
was, the buffer among it; the same opcode again emits the same frame again (R58). -/
def Obligations.CmdEmitsOneCommandFrame : Prop :=
  ∀ (x : Byte) (s : State), ∃ t, exec (.cmd x) s = .next t ∧
    t = { s with
      trace := s.trace ++ frameEvents s.txmode s.csPresent (encCmd s.cfg x)
      lines := (frameEvents s.txmode s.csPresent (encCmd s.cfg x)).foldl Lines.drive s.lines } ∧
    ∃ u, exec (.cmd x) t = .next u ∧ u.trace = t.trace ++ frameEvents s.txmode s.csPresent (encCmd s.cfg x)

/-- `LDG` completes in every state for every six lanes: every glyph is loaded, dot bits are cleared, battery bits kept;
one data frame of the buffer it leaves is emitted; nothing else changes; twice is as once (R72). -/
def Obligations.LdgLoadsGlyphsKeepsBattery : Prop :=
  ∀ (g : SixBytes) (s : State), ∃ t, exec (.ldg g) s = .next t ∧
    (∀ i ∈ dotIdx s.cfg, byteAt t.buf i = 0#1 ++ (byteAt g i).extractLsb' 0 7) ∧
    (∀ i ∈ batIdx s.cfg, byteAt t.buf i = (byteAt s.buf i).extractLsb' 7 1 ++ (byteAt g i).extractLsb' 0 7) ∧
    t = { s with
      buf := t.buf
      trace := s.trace ++ frameEvents s.txmode s.csPresent (encData s.cfg t.buf)
      lines := (frameEvents s.txmode s.csPresent (encData s.cfg t.buf)).foldl Lines.drive s.lines } ∧
    ∃ u, exec (.ldg g) t = .next u ∧ u.buf = t.buf ∧
      u.trace = t.trace ++ frameEvents s.txmode s.csPresent (encData s.cfg t.buf)

/-- `DOT` completes in every state for every `p`: the dot bit of index `DOT_BASE - p` is set when `1 <= p <= 3` and every
other dot bit is clear; glyphs and battery bits stay; one data frame is emitted in every case; twice is as once (R73). -/
def Obligations.DotSetsOnlyThePointAsked : Prop :=
  ∀ (p : Byte) (s : State), ∃ t, exec (.dot p) s = .next t ∧
    (∀ i ∈ dotIdx s.cfg, ov (byteAt t.buf i) = true ↔
      1 ≤ p.toNat ∧ p.toNat ≤ 3 ∧ i.val = s.cfg.params.dotBase - p.toNat) ∧
    (∀ i : Pos, seg (byteAt t.buf i) = seg (byteAt s.buf i)) ∧
    (∀ i ∈ batIdx s.cfg, byteAt t.buf i = byteAt s.buf i) ∧
    (dotBits s.cfg t.buf).count true ≤ 1 ∧
    t = { s with
      buf := t.buf
      trace := s.trace ++ frameEvents s.txmode s.csPresent (encData s.cfg t.buf)
      lines := (frameEvents s.txmode s.csPresent (encData s.cfg t.buf)).foldl Lines.drive s.lines } ∧
    ∃ u, exec (.dot p) t = .next u ∧ u.buf = t.buf

/-- `BAT` completes in every state for every level: the bars are those of the level, cumulative; glyphs and dot bits stay;
one data frame is emitted; twice is as once (R74). -/
def Obligations.BatLightsTheBarsOfItsLevel : Prop :=
  ∀ (level : BatLevel) (s : State), ∃ t, exec (.bat level) s = .next t ∧
    batteryBits s.cfg t.buf =
      (match level with
        | .none => [false, false, false]
        | .low => [true, false, false]
        | .medium => [true, true, false]
        | .full => [true, true, true]) ∧
    (∀ i : Pos, seg (byteAt t.buf i) = seg (byteAt s.buf i)) ∧
    (∀ i ∈ dotIdx s.cfg, byteAt t.buf i = byteAt s.buf i) ∧
    t = { s with
      buf := t.buf
      trace := s.trace ++ frameEvents s.txmode s.csPresent (encData s.cfg t.buf)
      lines := (frameEvents s.txmode s.csPresent (encData s.cfg t.buf)).foldl Lines.drive s.lines } ∧
    ∃ u, exec (.bat level) t = .next u ∧ u.buf = t.buf

/-- `CLR` completes in every state: every byte is 0x00, and the frame emitted is the all-zero-data frame, also when the
buffer was clear; the three clearing steps leave the same in every order (R75). -/
def Obligations.ClrBlanksEveryByte : Prop :=
  (∀ s : State, ∃ t, exec .clr s = .next t ∧
    (∀ i : Pos, byteAt t.buf i = 0x00#8) ∧
    t = { s with
      buf := t.buf
      trace := s.trace ++ frameEvents s.txmode s.csPresent (encData s.cfg #v[0#8, 0#8, 0#8, 0#8, 0#8, 0#8])
      lines := (frameEvents s.txmode s.csPresent (encData s.cfg #v[0#8, 0#8, 0#8, 0#8, 0#8, 0#8])).foldl Lines.drive
        s.lines }) ∧
  (∀ (c : Config) (b : SixBytes),
    clrLetters c (clrBattery c (clrDots c b)) = clrBuf c b ∧ clrDots c (clrLetters c (clrBattery c b)) = clrBuf c b ∧
    clrBattery c (clrLetters c (clrDots c b)) = clrBuf c b ∧ clrDots c (clrBattery c (clrLetters c b)) = clrBuf c b ∧
    clrBattery c (clrDots c (clrLetters c b)) = clrBuf c b)

/-- The frame of all five operations: the configuration, the straps and the host's moves stay, the old trace is a
beginning of the new one, and the buffer changes only where the operation's rule says so. -/
def Obligations.OperationsChangeNothingElse : Prop :=
  (∀ (i : Instr) (s t : State), exec i s = .next t →
    t.cfg = s.cfg ∧ t.txmode = s.txmode ∧ t.csPresent = s.csPresent ∧ t.requests = s.requests ∧ s.trace <+: t.trace) ∧
  (∀ (x : Byte) (s t : State), exec (.cmd x) s = .next t → ∀ i : Pos, byteAt t.buf i = byteAt s.buf i) ∧
  (∀ (g : SixBytes) (s t : State), exec (.ldg g) s = .next t →
    ∀ i ∈ batIdx s.cfg, ov (byteAt t.buf i) = ov (byteAt s.buf i)) ∧
  (∀ (p : Byte) (s t : State), exec (.dot p) s = .next t →
    ∀ i : Pos, byteAt t.buf i ≠ byteAt s.buf i → i ∈ dotIdx s.cfg ∧ seg (byteAt t.buf i) = seg (byteAt s.buf i)) ∧
  (∀ (level : BatLevel) (s t : State), exec (.bat level) s = .next t →
    ∀ i : Pos, byteAt t.buf i ≠ byteAt s.buf i → i ∈ batIdx s.cfg ∧ seg (byteAt t.buf i) = seg (byteAt s.buf i))

/-- Every operation but `CMD` emits one data frame, last, and it shows the buffer that same operation left: no
intermediate buffer is ever sent (R36, R70, R76 f). -/
def Obligations.EveryBufferOperationEndsInOneFlush : Prop :=
  ∀ (i : Instr) (s t : State), exec i s = .next t → (∀ x, i ≠ .cmd x) →
    t.trace = s.trace ++ frameEvents t.txmode t.csPresent (encData t.cfg t.buf)

/-! ### Laws of the buffer (41_buffer_mux.md R63, R76) -/

/-- What an operation does to a byte is a clear mask and a set mask that depend on the operation, the configuration and the
index alone and never overlap; nothing replaces a byte by looking at the buffer (R63). -/
def Obligations.BufferWritesAreMasks : Prop :=
  ∀ (i : Instr) (c : Config), ∃ clr set : Pos → Byte,
    (∀ j, clr j &&& set j = 0#8) ∧
    ∀ s t : State, s.cfg = c → exec i s = .next t → ∀ j, byteAt t.buf j = (byteAt s.buf j &&& ~~~(clr j)) ||| set j

/-- `DOT` and `BAT` commute on the buffer (R76 d). -/
def Obligations.DotAndBatCommuteOnTheBuffer : Prop :=
  ∀ (p : Byte) (level : BatLevel) (s t u t' u' : State),
    exec (.dot p) s = .next t → exec (.bat level) t = .next u →
    exec (.bat level) s = .next t' → exec (.dot p) t' = .next u' → u.buf = u'.buf

/-- `LDG` then `DOT p` gives the glyphs plus the point; `DOT p` then `LDG` gives the glyphs with no point (R76 e, R96). -/
def Obligations.PointSurvivesOnlyAfterTheGlyphs : Prop :=
  (∀ (g : SixBytes) (p : Byte) (s t u : State), exec (.ldg g) s = .next t → exec (.dot p) t = .next u →
    (∀ i : Pos, seg (byteAt u.buf i) = seg (byteAt g i)) ∧
    ∀ i ∈ dotIdx s.cfg, ov (byteAt u.buf i) = true ↔
      1 ≤ p.toNat ∧ p.toNat ≤ 3 ∧ i.val = s.cfg.params.dotBase - p.toNat) ∧
  (∀ (g : SixBytes) (p : Byte) (s t u : State), exec (.dot p) s = .next t → exec (.ldg g) t = .next u →
    (∀ i : Pos, seg (byteAt u.buf i) = seg (byteAt g i)) ∧ ∀ i ∈ dotIdx s.cfg, ov (byteAt u.buf i) = false)

/-! ### Whole-machine rules -/

/-- A newly built block is safe. The empty trace is R88, the spec's own decision D18 (log 16); the observer in `ChipOk` is log 17. -/
def Obligations.BuiltBlocksAreSafe : Prop :=
  ∀ (b : Build) (s : State), State.construct b = .next s → Safe s

/-- Every step keeps the overlay rules: at most one dot, and the bars one of the four cumulative sets (R76 b, c). -/
def Obligations.StepKeepsTheOverlayRules : Prop :=
  ∀ s t : State, OverlayOk s → step s = .next t → OverlayOk t

/-- Every step keeps the discipline of the trace: brackets, clock order, only events the straps allow (R54 to R57, R92). -/
def Obligations.StepKeepsTheTraceDiscipline : Prop :=
  ∀ s t : State, TraceOk s → step s = .next t → TraceOk t

/-- Every step keeps the lines at the levels last driven (R19). -/
def Obligations.StepKeepsLinesAtTheLastDrivenLevel : Prop :=
  ∀ s t : State, LinesOk s → step s = .next t →
    LinesOk t ∧ (TraceOk s → t.csPresent = true → t.lines.cs = true)

/-- Every step keeps the last data frame on the bus equal to the buffer: once the first flush has happened, no completed
operation leaves the chip behind the buffer (R22, R33, R94). The observer in `ChipOk` is the model's (log 17). -/
def Obligations.StepKeepsTheChipAbreastOfTheBuffer : Prop :=
  ∀ s t : State, TraceOk s → ChipOk s → step s = .next t → ChipOk t

/-- Every state a built block can reach, whatever the host issues, is safe: what the step lemmas above say, closed over
`Reachable`. The model's choices in it: the host's moves are a list in State that the host may set between steps (log 8),
the states before an overlap is refused count (log 9), and `ChipOk` reads the trace with an observer of its own (log 17). -/
def Obligations.ReachableStatesAreSafe : Prop :=
  ∀ s : State, Reachable s → Safe s

/-- No step changes the configuration or a strap, and no step takes an event out of the trace (R18, R22). -/
def Obligations.StepNeverChangesStrapsNorPastEvents : Prop :=
  ∀ s t : State, step s = .next t →
    t.cfg = s.cfg ∧ t.txmode = s.txmode ∧ t.csPresent = s.csPresent ∧ s.trace <+: t.trace

/-- A request behaves the same whatever came before, apart from the contents of `BUF`: neither the trace nor a line level
is read (R19, R22, R82). -/
def Obligations.RequestsDoNotDependOnHistory : Prop :=
  ∀ (i : Instr) (s s' t t' : State), s.cfg = s'.cfg → s.txmode = s'.txmode → s.csPresent = s'.csPresent → s.buf = s'.buf →
    exec i s = .next t → exec i s' = .next t' →
    t.buf = t'.buf ∧ ∃ es, t.trace = s.trace ++ es ∧ t'.trace = s'.trace ++ es

/-- A run over any list of instructions completes, one step each, and the trace it adds is the concatenation of one frame a
request in request order (R32): the frame of a `CMD` is `enc_cmd` of its opcode, the frame of any other request is `enc_data`
of the buffer that same request leaves, where request `k` runs on the state the `k` requests before it left. The moves in
State are the model's choice (log 8), and so is that the last request completes also where `rest` overlaps it (log 9). -/
def Obligations.RunEmitsOneFramePerRequestInOrder : Prop :=
  ∀ (is : List Instr) (rest : List HostMove) (s : State), s.requests = requestsOf is ++ rest →
    ∃ (t : State) (frames : List (List Byte)), Host.Core.run core is.length s = .next t ∧ t.requests = rest ∧
      t.trace = s.trace ++ frames.flatMap (frameEvents s.txmode s.csPresent) ∧ frames.length = is.length ∧
      ∀ (k : Nat) (i : Instr), is[k]? = some i → ∃ u v : State,
        Host.Core.run core k s = .next u ∧ Host.Core.run core (k + 1) s = .next v ∧
        exec i { u with requests := v.requests } = .next v ∧
        frames[k]? = some (match i with
          | .cmd x => encCmd s.cfg x
          | .ldg _ => encData s.cfg v.buf
          | .dot _ => encData s.cfg v.buf
          | .bat _ => encData s.cfg v.buf
          | .clr => encData s.cfg v.buf)

/-- A host that issues no reserved code and no overlapping request never sees the block stop, from any state and for any
number of steps (R77, R86). The steps past the host's last move are idle steps, the model's choice (log 8, DESIGN CHOICE),
as are the moves in State. -/
def Obligations.WellBehavedHostIsNeverRefused : Prop :=
  ∀ (n : Nat) (s : State), wellBehaved s.requests = true → ∃ t, Host.Core.run core n s = .next t
end

