-- ==== Sys2Proof/Laws/Buffer.lean ====
section
/-! SUPPORT. What each masked write leaves in each byte of the buffer, byte by byte. -/

namespace Sys2Proof.Machine

/-! ### Overlay geometry -/

theorem mem_dotIdx (c : Config) (i : Pos) : i ∈ dotIdx c ↔ c.params.isDotIdx i = true := by
  have := c.index_facts.1
  simp only [dotIdx, dotPos, List.mem_cons, List.not_mem_nil, or_false, Fin.ext_iff, Params.isDotIdx,
    Bool.or_eq_true, decide_eq_true_eq, or_assoc]
  omega

theorem mem_batIdx (c : Config) (i : Pos) :
    i ∈ batIdx c ↔ i.val = c.params.b1 ∨ i.val = c.params.b2 ∨ i.val = c.params.b3 := by
  simp [batIdx, bar1, bar2, bar3, Fin.ext_iff]

theorem dotIdx_nodup (c : Config) : (dotIdx c).Nodup := by
  have := c.index_facts.1
  simp only [dotIdx, dotPos, List.nodup_cons, List.mem_cons, List.not_mem_nil, or_false, Fin.ext_iff,
    not_false_eq_true, List.nodup_nil, and_true]
  omega

theorem batIdx_nodup (c : Config) : (batIdx c).Nodup := by
  have := c.index_facts.2.2.1
  simp only [batIdx, bar1, bar2, bar3, List.nodup_cons, List.mem_cons, List.not_mem_nil, or_false, Fin.ext_iff,
    not_false_eq_true, List.nodup_nil, and_true]
  omega

theorem positions_nodup : positions.Nodup := by decide

theorem mem_positions (i : Pos) : i ∈ positions := by revert i; decide

/-! ### Masked writes -/

theorem maskWrite_get (buf : SixBytes) (i j : Pos) (clr set : Byte) :
    byteAt (maskWrite buf i clr set) j = if j = i then (byteAt buf j &&& ~~~clr) ||| set else byteAt buf j := by
  unfold maskWrite
  by_cases h : j = i
  · subst h; simp [byteAt]
  · have : (i : Nat) ≠ j := fun e => h (Fin.ext e.symm)
    simp [h, byteAt, this]

/-- A run of masked writes to different bytes, with masks that depend on the index only. -/
theorem foldl_maskWrite_get (clr set : Pos → Byte) (l : List Pos) (hl : l.Nodup) (buf : SixBytes) (j : Pos) :
    byteAt (l.foldl (fun b i => maskWrite b i (clr i) (set i)) buf) j =
      if j ∈ l then (byteAt buf j &&& ~~~(clr j)) ||| set j else byteAt buf j := by
  induction l generalizing buf with
  | nil => simp
  | cons i l ih =>
    obtain ⟨hi, hl⟩ := List.nodup_cons.mp hl
    rw [List.foldl_cons, ih hl, maskWrite_get]
    by_cases h : j = i
    · subst h; simp [hi]
    · simp [h]

/-! ### Micro-operations -/

theorem clrLetters_get (c : Config) (buf : SixBytes) (j : Pos) :
    byteAt (clrLetters c buf) j = if j ∈ dotIdx c then 0#8 else byteAt buf j &&& OV := by
  have key := foldl_maskWrite_get (fun i => if i ∈ dotIdx c then 0xFF#8 else SEG) (fun _ => 0#8) positions
    positions_nodup buf j
  simp only [mem_positions, if_true] at key
  have body : (fun (b : SixBytes) (i : Pos) => if i ∈ dotIdx c then maskWrite b i 0xFF#8 0#8 else maskWrite b i SEG 0#8) =
      fun b i => maskWrite b i (if i ∈ dotIdx c then 0xFF#8 else SEG) 0#8 := by
    funext b i; split <;> rfl
  rw [clrLetters, body, key]
  split
  · simp
  · have : ~~~SEG = OV := by decide
    simp [this]

theorem not_OV : ~~~OV = SEG := by decide

/-- Clearing the overlay bits of the bytes of a list. -/
theorem foldl_clearOv_get (l : List Pos) (hl : l.Nodup) (buf : SixBytes) (j : Pos) :
    byteAt (l.foldl (fun b i => maskWrite b i OV 0#8) buf) j =
      if j ∈ l then byteAt buf j &&& SEG else byteAt buf j := by
  rw [foldl_maskWrite_get (fun _ => OV) (fun _ => 0#8) l hl buf j, not_OV, BitVec.or_zero]

theorem clrDots_get (c : Config) (buf : SixBytes) (j : Pos) :
    byteAt (clrDots c buf) j = if j ∈ dotIdx c then byteAt buf j &&& SEG else byteAt buf j :=
  foldl_clearOv_get _ (dotIdx_nodup c) buf j

theorem clrBattery_get (c : Config) (buf : SixBytes) (j : Pos) :
    byteAt (clrBattery c buf) j = if j ∈ batIdx c then byteAt buf j &&& SEG else byteAt buf j :=
  foldl_clearOv_get _ (batIdx_nodup c) buf j

theorem and_not_zero (b : Byte) : b &&& ~~~0#8 = b := by revert b; decide

theorem setOv_get (buf : SixBytes) (i j : Pos) :
    byteAt (setOv buf i) j = if j = i then byteAt buf j ||| OV else byteAt buf j := by
  rw [setOv, maskWrite_get, and_not_zero]

theorem foldl_setOv_get (l : List Pos) (hl : l.Nodup) (buf : SixBytes) (j : Pos) :
    byteAt (l.foldl setOv buf) j = if j ∈ l then byteAt buf j ||| OV else byteAt buf j := by
  have h := foldl_maskWrite_get (fun _ => 0#8) (fun _ => OV) l hl buf j
  rwa [and_not_zero] at h

theorem foldl_orGlyph_get (g buf : SixBytes) (j : Pos) :
    byteAt (positions.foldl (fun b i => orGlyph b i (byteAt g i)) buf) j = byteAt buf j ||| glyphMask (byteAt g j) := by
  have h := foldl_maskWrite_get (fun _ => 0#8) (fun i => glyphMask (byteAt g i)) positions positions_nodup buf j
  rwa [and_not_zero, if_pos (mem_positions j)] at h

/-! ### The two fields of a byte under the masks -/

section fields
variable (b g : Byte)
@[simp] theorem ov_zero : ov 0#8 = false := by decide
@[simp] theorem seg_zero : seg 0#8 = 0#7 := by decide
@[simp] theorem ov_OV : ov OV = true := by decide
@[simp] theorem seg_OV : seg OV = 0#7 := by decide
@[simp] theorem ov_and_OV : ov (b &&& OV) = ov b := by revert b; decide
@[simp] theorem seg_and_OV : seg (b &&& OV) = 0#7 := by revert b; decide
@[simp] theorem ov_and_SEG : ov (b &&& SEG) = false := by revert b; decide
@[simp] theorem seg_and_SEG : seg (b &&& SEG) = seg b := by revert b; decide
@[simp] theorem ov_glyphMask : ov (glyphMask g) = false := ov_and_SEG g
@[simp] theorem seg_glyphMask : seg (glyphMask g) = seg g := seg_and_SEG g
@[simp] theorem ov_or : ov (b ||| g) = (ov b || ov g) := by simp [ov]
@[simp] theorem seg_or : seg (b ||| g) = seg b ||| seg g := by
  ext i hi; simp [seg]
end fields

/-- A byte is its two fields. -/
theorem byte_ext {a b : Byte} (ho : ov a = ov b) (hs : seg a = seg b) : a = b := by
  apply BitVec.eq_of_getLsbD_eq
  intro i hi
  by_cases h : i = 7
  · subst h; exact ho
  · have := congrArg (fun v => BitVec.getLsbD v i) hs
    simpa [seg, show i < 7 by omega] using this

/-- Two buffers are equal when they are equal at every position. -/
theorem buf_ext {a b : SixBytes} (h : ∀ i : Pos, byteAt a i = byteAt b i) : a = b := by
  apply Vector.ext
  intro i hi
  exact h ⟨i, hi⟩

/-- The bars of a level are among the three, each once. -/
theorem batterySet_sublist (c : Config) (level : BatLevel) : (batterySet c level).Sublist (batIdx c) := by
  cases level <;> simp [batterySet, batIdx, BatLevel.code]

theorem batterySet_nodup (c : Config) (level : BatLevel) : (batterySet c level).Nodup :=
  (batIdx_nodup c).sublist (batterySet_sublist c level)

/-- The index of `DOT p`, as arithmetic. -/
theorem dotIndex_eq_some (c : Config) (p : Byte) (i : Pos) :
    dotIndex c p = some i ↔ 1 ≤ p.toNat ∧ p.toNat ≤ 3 ∧ i.val = c.params.dotBase - p.toNat := by
  unfold dotIndex
  split
  · next h => simp only [dotPos, Option.some.injEq, Fin.ext_iff]; omega
  · next h => simp only [reduceCtorEq, false_iff]; omega

theorem dotIndex_mem {c : Config} {p : Byte} {i : Pos} (h : dotIndex c p = some i) : i ∈ dotIdx c := by
  have hb := c.index_facts.1
  have hi := (dotIndex_eq_some c p i).mp h
  simp only [mem_dotIdx, Params.isDotIdx, Bool.or_eq_true, decide_eq_true_eq]
  omega

end Sys2Proof.Machine
end

