-- ==== Sys2Proof/Laws/Decode.lean ====
section
/-! SUPPORT. The small lemmas of the request word: battery level codes, and which operation code selects what. -/

namespace Sys2Proof

theorem BatLevel.ofCode_code (l : BatLevel) : BatLevel.ofCode l.code = l := by cases l <;> rfl

theorem BatLevel.code_ofCode (v : BitVec 2) : (BatLevel.ofCode v).code = v := by
  revert v; decide

theorem lanes_get (arg : BitVec 48) (i : Pos) : byteAt (lanes arg) i = lane arg i := by
  fin_cases i <;> rfl

section opField
variable {w : ReqWord}

theorem decode_cmd (h : opField w = 0#3) : decode w = .ok (.cmd (lane (argField w) 0)) := by simp [decode, h]
theorem decode_ldg (h : opField w = 1#3) : decode w = .ok (.ldg (lanes (argField w))) := by simp [decode, h]
theorem decode_dot (h : opField w = 2#3) : decode w = .ok (.dot (lane (argField w) 0)) := by simp [decode, h]
theorem decode_bat (h : opField w = 3#3) :
    decode w = .ok (.bat (BatLevel.ofCode ((argField w).extractLsb' 0 2))) := by simp [decode, h]
theorem decode_clr (h : opField w = 4#3) : decode w = .ok .clr := by simp [decode, h]

theorem decode_reserved (h : 5 ≤ (opField w).toNat) : decode w = .error (.reservedOp (opField w)) := by
  have ne (v : BitVec 3) (hv : v.toNat < 5) : opField w ≠ v := fun e => by rw [e] at h; omega
  simp [decode, ne 0#3 (by decide), ne 1#3 (by decide), ne 2#3 (by decide), ne 3#3 (by decide), ne 4#3 (by decide)]

end opField

end Sys2Proof
end

