-- ==== Sys2Proof/Laws/State.lean ====
section
/-! SUPPORT. One lemma per field per update of the state, and what `emitAll` and `nextMove` do. -/

namespace Sys2Proof.Machine

section withBuf
variable (s : State) (b : SixBytes)
@[simp] theorem withBuf_cfg : (s.withBuf b).cfg = s.cfg := rfl
@[simp] theorem withBuf_txmode : (s.withBuf b).txmode = s.txmode := rfl
@[simp] theorem withBuf_csPresent : (s.withBuf b).csPresent = s.csPresent := rfl
@[simp] theorem withBuf_buf : (s.withBuf b).buf = b := rfl
@[simp] theorem withBuf_lines : (s.withBuf b).lines = s.lines := rfl
@[simp] theorem withBuf_trace : (s.withBuf b).trace = s.trace := rfl
@[simp] theorem withBuf_requests : (s.withBuf b).requests = s.requests := rfl
end withBuf

section emitAll
variable (s : State) (es : List Event)
@[simp] theorem emitAll_cfg : (emitAll s es).cfg = s.cfg := rfl
@[simp] theorem emitAll_txmode : (emitAll s es).txmode = s.txmode := rfl
@[simp] theorem emitAll_csPresent : (emitAll s es).csPresent = s.csPresent := rfl
@[simp] theorem emitAll_buf : (emitAll s es).buf = s.buf := rfl
@[simp] theorem emitAll_lines : (emitAll s es).lines = es.foldl Lines.drive s.lines := rfl
@[simp] theorem emitAll_trace : (emitAll s es).trace = s.trace ++ es := rfl
@[simp] theorem emitAll_requests : (emitAll s es).requests = s.requests := rfl
end emitAll

section issue
variable (s : State) (w : ReqWord)
@[simp] theorem issue_cfg : (s.issue w).cfg = s.cfg := rfl
@[simp] theorem issue_txmode : (s.issue w).txmode = s.txmode := rfl
@[simp] theorem issue_csPresent : (s.issue w).csPresent = s.csPresent := rfl
@[simp] theorem issue_buf : (s.issue w).buf = s.buf := rfl
@[simp] theorem issue_lines : (s.issue w).lines = s.lines := rfl
@[simp] theorem issue_trace : (s.issue w).trace = s.trace := rfl
@[simp] theorem issue_requests : (s.issue w).requests = .request w :: s.requests := rfl
end issue

section drive
variable (l : Lines) (v : Bit) (bytes : List Byte) (n : Nat)
@[simp] theorem drive_cs : l.drive (.cs v) = { l with cs := v } := rfl
@[simp] theorem drive_clk : l.drive (.clk v) = { l with clk := v } := rfl
@[simp] theorem drive_data : l.drive (.data v) = { l with data := v } := rfl
@[simp] theorem drive_bulk : l.drive (.bulk bytes n) = l := rfl
end drive

/-- Emitting a list is emitting its events one after the other. -/
theorem emitAll_eq_foldl_emit (s : State) (es : List Event) : emitAll s es = es.foldl emit s := by
  induction es generalizing s with
  | nil => simp [emitAll]
  | cons e es ih => simp [← ih, emit, emitAll]

theorem emitAll_append (s : State) (es fs : List Event) : emitAll (emitAll s es) fs = emitAll s (es ++ fs) := by
  simp [emitAll]

/-- The host's next move is the head of its stream, and taking it changes nothing else. -/
theorem nextMove_some {s s' : State} {m : HostMove} (h : nextMove s = some (m, s')) :
    s.requests = m :: s'.requests ∧ s' = { s with requests := s'.requests } := by
  unfold nextMove at h
  split at h
  · cases h
  · cases h; exact ⟨by assumption, rfl⟩

theorem nextMove_none {s : State} : nextMove s = none ↔ s.requests = [] := by
  unfold nextMove; split <;> simp_all

end Sys2Proof.Machine
end

