-- ==== Sys2Proof/Laws/Framers.lean ====
section
/-! SUPPORT. What transmitting a frame, flushing and writing-then-flushing do to each field, and the sizes of the framers' results. -/

namespace Sys2Proof.Machine

section transmit
variable (s : State) (e : List Byte)
@[simp] theorem transmit_cfg : (transmit s e).cfg = s.cfg := rfl
@[simp] theorem transmit_txmode : (transmit s e).txmode = s.txmode := rfl
@[simp] theorem transmit_csPresent : (transmit s e).csPresent = s.csPresent := rfl
@[simp] theorem transmit_buf : (transmit s e).buf = s.buf := rfl
@[simp] theorem transmit_lines :
    (transmit s e).lines = (frameEvents s.txmode s.csPresent e).foldl Lines.drive s.lines := rfl
@[simp] theorem transmit_trace : (transmit s e).trace = s.trace ++ frameEvents s.txmode s.csPresent e := rfl
@[simp] theorem transmit_requests : (transmit s e).requests = s.requests := rfl
end transmit

section writeThenFlush
variable (s : State) (b : SixBytes)
@[simp] theorem writeThenFlush_cfg : (writeThenFlush s b).cfg = s.cfg := rfl
@[simp] theorem writeThenFlush_txmode : (writeThenFlush s b).txmode = s.txmode := rfl
@[simp] theorem writeThenFlush_csPresent : (writeThenFlush s b).csPresent = s.csPresent := rfl
@[simp] theorem writeThenFlush_buf : (writeThenFlush s b).buf = b := rfl
@[simp] theorem writeThenFlush_lines : (writeThenFlush s b).lines =
    (frameEvents s.txmode s.csPresent (encData s.cfg b)).foldl Lines.drive s.lines := rfl
@[simp] theorem writeThenFlush_trace :
    (writeThenFlush s b).trace = s.trace ++ frameEvents s.txmode s.csPresent (encData s.cfg b) := rfl
@[simp] theorem writeThenFlush_requests : (writeThenFlush s b).requests = s.requests := rfl
end writeThenFlush

@[simp] theorem leImage_length (k : Nat) (v : BitVec (8 * k)) : (leImage k v).length = k := by simp [leImage]

theorem encCmd_length (c : Config) (opcode : Byte) : (encCmd c opcode).length = 2 := by
  simp [encCmd, reverseBytes]

theorem encData_length (c : Config) (b : SixBytes) : (encData c b).length = 8 := by
  simp [encData, reverseBytes]

@[simp] theorem bitsOfByte_length (b : Byte) : (bitsOfByte b).length = 8 := rfl

theorem bitsOfBytes_length (s : List Byte) : (bitsOfBytes s).length = 8 * s.length := by
  induction s with
  | nil => rfl
  | cons b s ih => simp only [bitsOfBytes, List.flatMap_cons, List.length_append, List.length_cons, bitsOfByte_length] at *; omega

/-- The bytes of a command frame, straight from the container. -/
theorem encCmd_eq (c : Config) (opcode : Byte) :
    encCmd c opcode = [(cmdContainer c opcode).extractLsb' 8 8, (cmdContainer c opcode).extractLsb' 0 8] := rfl

/-- The bytes of a data frame, straight from the container. -/
theorem encData_eq (c : Config) (b : SixBytes) :
    encData c b =
      [(dataContainer c b).extractLsb' 56 8, (dataContainer c b).extractLsb' 48 8, (dataContainer c b).extractLsb' 40 8,
        (dataContainer c b).extractLsb' 32 8, (dataContainer c b).extractLsb' 24 8, (dataContainer c b).extractLsb' 16 8,
        (dataContainer c b).extractLsb' 8 8, (dataContainer c b).extractLsb' 0 8] := rfl

end Sys2Proof.Machine
end

