-- ==== Sys2Proof/Laws/PerInstr.lean ====
section
/-! SUPPORT. A statement for every instruction, one lemma per constructor: the encoder writes the bits opcode_table.json
fixes for the instruction, and leaves every bit its operation ignores at 0 (30_encoding.md R38, R49). -/

namespace Sys2Proof.Laws.EncodesItsRow

/-- The bits `match` of the instruction's row of opcode_table.json, under its mask 0x7000000000000. -/
def rowMatch : Instr → ReqWord
  | .cmd _ => 0x0000000000000#51
  | .ldg _ => 0x1000000000000#51
  | .dot _ => 0x2000000000000#51
  | .bat _ => 0x3000000000000#51
  | .clr => 0x4000000000000#51

def Statement (i : Instr) : Prop :=
  encode i &&& 0x7000000000000#51 = rowMatch i ∧ encode i &&& ~~~(usedBits i) = 0#51

theorem cmd (opcode : Byte) : Statement (.cmd opcode) := by
  revert opcode; unfold Statement; decide

theorem ldg (g : SixBytes) : Statement (.ldg g) := by
  constructor
  · apply BitVec.eq_of_getLsbD_eq
    intro i hi
    simp only [encode, rowMatch, BitVec.getLsbD_and, BitVec.getLsbD_append]
    interval_cases i <;> simp
  · simp [usedBits]

theorem dot (p : Byte) : Statement (.dot p) := by
  revert p; unfold Statement; decide

theorem bat (level : BatLevel) : Statement (.bat level) := by
  cases level <;> (unfold Statement; decide)

theorem clr : Statement .clr := by
  unfold Statement; decide

end Sys2Proof.Laws.EncodesItsRow
end

