-- ==== Sys2Proof/Laws/Step.lean ====
section
/-! SUPPORT. Everything a step can do, said once. -/

namespace Sys2Proof.Machine

/-- The bytes of the one frame an operation emits, given the buffer it leaves. -/
def frameOf (c : Config) (bufAfter : SixBytes) : Instr → List Byte
  | .cmd opcode => encCmd c opcode
  | .ldg _ => encData c bufAfter
  | .dot _ => encData c bufAfter
  | .bat _ => encData c bufAfter
  | .clr => encData c bufAfter

/-- The buffer an operation leaves. -/
def bufOf (c : Config) (buf : SixBytes) : Instr → SixBytes
  | .cmd _ => buf
  | .ldg g => ldgBuf c g buf
  | .dot p => dotBuf c p buf
  | .bat level => batBuf c level buf
  | .clr => clrBuf c buf

/-- Every operation writes its buffer and transmits its one frame. -/
theorem exec_eq (i : Instr) (s : State) :
    exec i s = .next (transmit (s.withBuf (bufOf s.cfg s.buf i)) (frameOf s.cfg (bufOf s.cfg s.buf i) i)) := by
  cases i <;> rfl

/-- What a step answers, by the host's move. -/
theorem step_cases (s : State) :
    (s.requests = [] ∧ step s = .next s) ∨
    (∃ w rest, s.requests = .overlap w :: rest ∧ step s = .refused .overlappingRequest) ∨
    (∃ w rest op, s.requests = .request w :: rest ∧ decode w = .error (.reservedOp op) ∧
      step s = .refused (.reservedOperation op)) ∨
    (∃ w rest i, s.requests = .request w :: rest ∧ decode w = .ok i ∧
      step s = exec i { s with requests := rest }) := by
  cases hr : s.requests with
  | nil => exact .inl ⟨rfl, by simp [step, nextMove, hr]⟩
  | cons m rest =>
    refine .inr ?_
    cases m with
    | overlap w => exact .inl ⟨w, rest, rfl, by simp [step, nextMove, hr]⟩
    | request w =>
      refine .inr ?_
      cases hd : decode w with
      | error e =>
        cases e with
        | reservedOp op => exact .inl ⟨w, rest, op, rfl, hd, by simp [step, nextMove, hr, perform, hd]⟩
      | ok i => exact .inr ⟨w, rest, i, rfl, hd, by simp [step, nextMove, hr, perform, hd]⟩

/-- A step that answers a next state was idle or ran one instruction. -/
theorem step_next {s t : State} (h : step s = .next t) :
    t = s ∨ ∃ w rest i, s.requests = .request w :: rest ∧ decode w = .ok i ∧
      exec i { s with requests := rest } = .next t := by
  obtain ⟨_, e⟩ | ⟨_, _, _, e⟩ | ⟨_, _, _, _, _, e⟩ | ⟨w, rest, i, hr, hd, e⟩ := step_cases s
  · rw [e] at h; cases h; exact .inl rfl
  · rw [e] at h; cases h
  · rw [e] at h; cases h
  · exact .inr ⟨w, rest, i, hr, hd, e ▸ h⟩

/-- A run whose first step answers a next state goes on from it. -/
theorem run_of_step {s t : State} (h : step s = .next t) (n : Nat) :
    Host.Core.run core (n + 1) s = Host.Core.run core n t := by
  have : core.step s = .next t := h
  simp only [Host.Core.run, this]

end Sys2Proof.Machine
end

