-- ==== Sys2Proof/Laws/Trace.lean ====
section
/-! SUPPORT. How the observers of Safety.lean run over the events of one frame and over a trace with events appended. -/

namespace Sys2Proof.Machine

/-- The bits of a concatenation in wire order: the more significant part first. -/
theorem msbBits_append {m n : Nat} (x : BitVec m) (y : BitVec n) : msbBits (x ++ y) = msbBits x ++ msbBits y := by
  apply List.ext_getElem (by simp [msbBits])
  intro i h1 h2
  have hi : i < m + n := by simpa [msbBits] using h1
  simp only [List.getElem_append, msbBits, List.getElem_map, List.getElem_range, List.length_map, List.length_range,
    BitVec.getLsbD_append]
  split <;> split
  · omega
  · congr 1; omega
  · congr 1; omega
  · omega

/-- The data level after a list of events, `d` before it. -/
def dataAfter : Bit → List Event → Bit
  | d, [] => d
  | _, .data l :: es => dataAfter l es
  | d, .cs _ :: es => dataAfter d es
  | d, .clk _ :: es => dataAfter d es
  | d, .bulk _ _ :: es => dataAfter d es

theorem sampled_append (d : Bit) (es fs : List Event) :
    sampled d (es ++ fs) = sampled d es ++ sampled (dataAfter d es) fs := by
  induction es generalizing d with
  | nil => rfl
  | cons e es ih => cases e <;> simp [sampled, dataAfter, ih]; split <;> simp

theorem sampled_bits (d : Bit) (bits : List Bit) : sampled d (bits.flatMap bitEvents) = bits := by
  induction bits generalizing d with
  | nil => rfl
  | cons x bits ih => simpa [bitEvents, sampled] using ih x

/-- A receiver takes exactly the bits of the bytes of a frame, in wire order, in either mode. -/
theorem sampled_frameEvents (tx : TxMode) (cs : Bool) (d : Bit) (e : List Byte) :
    sampled d (frameEvents tx cs e) = bitsOfBytes e := by
  have bits (d : Bit) (fs : List Event) : sampled d (bitbangEvents e ++ fs) =
      bitsOfBytes e ++ sampled (dataAfter d (bitbangEvents e)) fs := by
    rw [sampled_append, bitbangEvents, sampled_bits]
  cases tx <;> cases cs <;> simp [frameEvents, bodyEvents, bulkEvents, sampled, bits]
  rw [bitbangEvents, sampled_bits]

theorem clocked_append (ph : BitPhase) (es fs : List Event) (h : clocked ph es = true) :
    clocked ph (es ++ fs) = clocked .between fs := by
  induction es generalizing ph with
  | nil => simp [clocked] at h; simp [h]
  | cons e es ih =>
    cases e with
    | clk l =>
      by_cases hl : l = true <;>
        simp only [clocked, hl, if_true, Bool.and_eq_true, List.cons_append, Bool.false_eq_true, if_false] at h ⊢ <;>
        simp [h.1, ih _ h.2]
    | cs l => simp only [clocked, Bool.and_eq_true, List.cons_append] at h ⊢; simp [h.1, ih _ h.2]
    | data l => simp only [clocked, Bool.and_eq_true, List.cons_append] at h ⊢; simp [h.1, ih _ h.2]
    | bulk b n => simp only [clocked, Bool.and_eq_true, List.cons_append] at h ⊢; simp [h.1, ih _ h.2]

theorem clocked_bits (bits : List Bit) (es : List Event) :
    clocked .between (bits.flatMap bitEvents ++ es) = clocked .between es := by
  induction bits with
  | nil => rfl
  | cons x bits ih => simpa [bitEvents, clocked] using ih

theorem bracketed_append (low : Bool) (es fs : List Event) (h : bracketed low es = true) :
    bracketed low (es ++ fs) = bracketed false fs := by
  induction es generalizing low with
  | nil => simp [bracketed] at h; simp [h]
  | cons e es ih =>
    cases e with
    | cs l =>
      by_cases hl : l = true <;>
        simp only [bracketed, hl, if_true, Bool.and_eq_true, List.cons_append, Bool.false_eq_true, if_false] at h ⊢ <;>
        simp [h.1, ih _ h.2]
    | clk l => simp only [bracketed, Bool.and_eq_true, List.cons_append] at h ⊢; rw [ih _ h.2, h.1, Bool.true_and]
    | data l => simp only [bracketed, Bool.and_eq_true, List.cons_append] at h ⊢; rw [ih _ h.2, h.1, Bool.true_and]
    | bulk b n => simp only [bracketed, Bool.and_eq_true, List.cons_append] at h ⊢; rw [ih _ h.2, h.1, Bool.true_and]

theorem bracketed_bits (bits : List Bit) (es : List Event) :
    bracketed true (bits.flatMap bitEvents ++ es) = bracketed true es := by
  induction bits with
  | nil => rfl
  | cons x bits ih => simpa [bitEvents, bracketed] using ih

/-- A trace that ends with `CS` released has no frame in progress, so what follows is deframed by itself. -/
theorem deframe_append {low : Bool} (cur : Option (List Bit)) (hc : cur.isSome = low) (d : Bit) (es fs : List Event)
    (h : bracketed low es = true) :
    deframe cur d (es ++ fs) = deframe cur d es ++ deframe none (dataAfter d es) fs := by
  induction es generalizing low cur d with
  | nil => cases cur <;> simp_all [bracketed, deframe, dataAfter]
  | cons e es ih =>
    cases e with
    | cs l =>
      cases l with
      | true =>
        simp only [bracketed, if_true, Bool.and_eq_true] at h
        obtain ⟨rfl, h⟩ := h
        obtain ⟨bits, rfl⟩ := Option.isSome_iff_exists.mp hc
        simp [deframe, dataAfter, ih none rfl d h]
      | false =>
        simp only [bracketed, Bool.false_eq_true, if_false, Bool.and_eq_true] at h
        simp [deframe, dataAfter, ih (some []) rfl d h.2]
    | clk l =>
      simp only [bracketed, Bool.and_eq_true] at h
      simp only [List.cons_append, deframe, dataAfter]
      exact ih _ (by split <;> simp [hc]) d h.2
    | data l =>
      simp only [bracketed, Bool.and_eq_true] at h
      simp only [List.cons_append, deframe, dataAfter]
      exact ih _ hc l h.2
    | bulk b n =>
      simp only [bracketed, Bool.and_eq_true] at h
      simp only [List.cons_append, deframe, dataAfter]
      exact ih _ (by simp [hc]) d h.2

/-- Bits clocked out inside a frame are added to it. -/
theorem deframe_bits (got : List Bit) (d : Bit) (bits : List Bit) (es : List Event) :
    deframe (some got) d (bits.flatMap bitEvents ++ es) =
      deframe (some (got ++ bits)) (dataAfter d (bits.flatMap bitEvents)) es := by
  induction bits generalizing got d with
  | nil => simp [dataAfter]
  | cons x bits ih =>
    simp only [List.flatMap_cons, bitEvents, List.cons_append, List.nil_append, deframe, dataAfter] at ih ⊢
    simpa [deframe] using ih (got ++ [x]) x

end Sys2Proof.Machine
end

