-- ==== Sys2Proof/Tests/Slice0.lean ====
section
/-! SUPPORT. The model's own tests. Expected values come from the spec: the worked examples and vectors of
95_test_vectors.md, the encodings of 30_encoding.md, the checks of 00_scope.md R7. Then, for each statement with
hypotheses, a witness that meets them. -/

namespace Sys2Proof.Tests

open Sys2Proof Sys2Proof.Machine

/-! ### Helpers -/

/-- The default block with a given buffer and straps. -/
def blockWith (c : Config) (tx : TxMode) (cs : Bool) (buf : SixBytes) : State :=
  { State.afterReset c tx cs false false with buf := buf }

/-- `PAIR_HIGH = EVEN`, all else the default. -/
def evenDoc : Config := ⟨{ Params.doc with pairHigh := .even }, by decide⟩

/-- The buffer and the events of a step that answers a next state. -/
def seen : Host.Outcome State Fault Refusal → Option (List Byte × List Event)
  | .next t => some (t.buf.toList, t.trace)
  | .fault _ => none
  | .refused _ => none

/-- The reason of a refusal. -/
def why : Host.Outcome State Fault Refusal → Option Refusal
  | .next _ => none
  | .fault _ => none
  | .refused r => some r

/-- One frame in `BULK` mode with a chip-select line (95 T3). -/
def bulkFrame (e : List Byte) : List Event := [.cs false, .bulk e e.length, .cs true]

/-! ### Decoding: words written out from 30_encoding.md R37 to R43 -/

theorem test_decode_cmd : decode (0b000#3 ++ 0b0000000000000000000000000000000000000000#40 ++ 0b01010010#8) = .ok (.cmd 0x52#8) := by
  decide

theorem test_decode_ldg_lanes :
    decode (0b001#3 ++ 0b01100110#8 ++ 0b00000110#8 ++ 0b01001111#8 ++ 0b00000000#8 ++ 0b00000000#8 ++ 0b00000000#8) =
      .ok (.ldg #v[0#8, 0#8, 0#8, 0x4F#8, 0x06#8, 0x66#8]) := by decide

theorem test_decode_ldg_p2_word : decode 0x166064F000000#51 = .ok (.ldg #v[0#8, 0#8, 0#8, 0x4F#8, 0x06#8, 0x66#8]) := by
  decide

theorem test_decode_dot : decode (0b010#3 ++ 0b0000000000000000000000000000000000000000#40 ++ 0b11111111#8) = .ok (.dot 255#8) := by
  decide

theorem test_decode_bat : decode (0b011#3 ++ 0b0000000000000000000000000000000000000000000000#46 ++ 0b01#2) = .ok (.bat .low) := by
  decide

theorem test_decode_clr : decode (0b100#3 ++ 0b000000000000000000000000000000000000000000000000#48) = .ok .clr := by decide

theorem test_decode_reserved : decode 0x6000000000000#51 = .error (.reservedOp 0b110#3) := by decide

theorem test_encode_dot_2 : encode (.dot 2#8) = 0x2000000000002#51 := by decide

theorem test_encode_p3_ldg : encode (.ldg #v[0x76#8, 0x79#8, 0x38#8, 0x38#8, 0x3F#8, 0x80#8]) = 0x1803F38387976#51 := by decide

theorem test_table_words :
    decodeTableWord 56 0x3000000000002 = some (.bat .medium) ∧ decodeTableWord 51 0x0000000000006 = some (.cmd 0x06#8) ∧
      decodeTableWord 56 0x5000000000000 = none ∧ decodeTableWord 56 (2 ^ 51) = none := by decide

/-! ### Ill-formed terms, one for each check -/

theorem test_wellformed_named_configs : Params.doc.wellFormed = true ∧ Params.upstream.wellFormed = true := by decide

theorem test_illformed_dots_out_of_range :
    ({ Params.doc with dotBase := 2 } : Params).dotsInRange = false ∧
      ({ Params.doc with dotBase := 7 } : Params).wellFormed = false := by decide

theorem test_illformed_bar_out_of_range :
    ({ Params.doc with b3 := 6 } : Params).barsInRange = false ∧ ({ Params.doc with b3 := 6 } : Params).wellFormed = false := by
  decide

theorem test_illformed_bars_equal :
    ({ Params.doc with b2 := 0 } : Params).barsDiffer = false ∧ ({ Params.doc with b2 := 0 } : Params).wellFormed = false := by
  decide

theorem test_illformed_bar_on_dot :
    ({ Params.doc with b3 := 4 } : Params).barsAreNoDots = false ∧ ({ Params.doc with b3 := 4 } : Params).wellFormed = false := by
  decide

theorem test_illformed_asm_lines :
    assemble (.cmd 256) = none ∧ assemble (.dot 256) = none ∧ assemble (.bat 4) = none ∧
      assemble (.ldg [0, 0, 0, 0, 0]) = none ∧ assemble (.ldg [0, 0, 0, 0, 0, 256]) = none := by decide

theorem test_asm_lines :
    assemble (.dot 255) = some (.dot 255#8) ∧ assemble (.bat 3) = some (.bat .full) ∧
      assemble (.ldg [0x76, 0x79, 0x38, 0x38, 0x3F, 0x00]) = some (.ldg #v[0x76#8, 0x79#8, 0x38#8, 0x38#8, 0x3F#8, 0#8]) := by
  decide

/-! ### Construction -/

/-- The default build, from which `State.reset` comes. -/
def docBuild : Build :=
  { params := Params.doc, txmode := .bulk, csLine := true, clkLine := false, dataLine := false, clkBefore := false, dataBefore := false }

theorem test_reset_is_a_construction : State.construct docBuild = .next State.reset := by rfl

theorem test_construct_refuses :
    why (State.construct { docBuild with params := { Params.doc with b1 := 4 } }) = some .illFormedConfig ∧
      why (State.construct { docBuild with txmode := .bitbang, clkLine := true }) = some .bitbangWithoutLine := by decide

/-! ### The operations (95_test_vectors.md sections 2.5 to 2.12) -/

theorem test_cmd_bulk :
    seen (exec (.cmd 0x06#8) (blockWith Config.doc .bulk true #v[1#8, 2#8, 3#8, 4#8, 5#8, 6#8])) =
      some ([1#8, 2#8, 3#8, 4#8, 5#8, 6#8], bulkFrame [0x80#8, 0x60#8]) := by decide

theorem test_cmd_bitbang_without_cs :
    seen (exec (.cmd 0x06#8) (blockWith Config.doc .bitbang false #v[0#8, 0#8, 0#8, 0#8, 0#8, 0#8])) =
      some ([0#8, 0#8, 0#8, 0#8, 0#8, 0#8],
        [true, false, false, false, false, false, false, false, false, true, true, false, false, false, false, false].flatMap
          fun b => [.clk false, .data b, .clk true]) := by decide

theorem test_ldg_l1_odd :
    seen (exec (.ldg #v[0x76#8, 0x79#8, 0x38#8, 0x38#8, 0x3F#8, 0x00#8])
      (blockWith Config.doc .bulk true #v[0x80#8, 0x00#8, 0x80#8, 0x12#8, 0x34#8, 0x80#8])) =
      some ([0xF6#8, 0x79#8, 0x38#8, 0x38#8, 0x3F#8, 0x80#8],
        bulkFrame [0xA0#8, 0x40#8, 0x1F#8, 0x9C#8, 0x1C#8, 0x3C#8, 0xFB#8, 0x00#8]) := by decide

theorem test_ldg_l2_even :
    seen (exec (.ldg #v[0xF6#8, 0xFF#8, 0x80#8, 0x00#8, 0x7F#8, 0x01#8])
      (blockWith evenDoc .bulk true #v[0xF6#8, 0x79#8, 0x38#8, 0x38#8, 0x3F#8, 0x80#8])) =
      some ([0xF6#8, 0x7F#8, 0x00#8, 0x00#8, 0x7F#8, 0x81#8],
        bulkFrame [0xA0#8, 0x3F#8, 0xC0#8, 0x80#8, 0x00#8, 0x7B#8, 0x3F#8, 0x80#8]) := by decide

theorem test_dot_d2 :
    seen (exec (.dot 2#8) (blockWith Config.doc .bulk true #v[0x80#8, 0x5B#8, 0x4F#8, 0x66#8, 0xED#8, 0x7D#8])) =
      some ([0x80#8, 0x5B#8, 0x4F#8, 0xE6#8, 0x6D#8, 0x7D#8],
        bulkFrame [0xA0#8, 0x3E#8, 0xB6#8, 0xF3#8, 0x27#8, 0xAD#8, 0xC0#8, 0x00#8]) := by decide

theorem test_dot_upstream :
    seen (exec (.dot 2#8) (blockWith Config.upstream .bulk true #v[0x00#8, 0x00#8, 0x80#8, 0x4F#8, 0x06#8, 0x66#8])) =
      some ([0x00#8, 0x00#8, 0x80#8, 0x4F#8, 0x86#8, 0x66#8],
        bulkFrame [0xA0#8, 0x33#8, 0x43#8, 0x27#8, 0xC0#8, 0x00#8, 0x00#8, 0x00#8]) := by decide

theorem test_bat_full :
    seen (exec (.bat .full) (blockWith Config.doc .bulk true #v[0x3F#8, 0x06#8, 0x5B#8, 0xCF#8, 0x66#8, 0x6D#8])) =
      some ([0xBF#8, 0x86#8, 0x5B#8, 0xCF#8, 0x66#8, 0xED#8],
        bulkFrame [0xA0#8, 0x76#8, 0xB3#8, 0x67#8, 0xAD#8, 0xC3#8, 0x5F#8, 0x80#8]) := by decide

theorem test_bat_low_upstream :
    seen (exec (.bat .low) (blockWith Config.upstream .bulk true #v[0#8, 0#8, 0#8, 0#8, 0#8, 0#8])) =
      some ([0#8, 0#8, 0x80#8, 0#8, 0#8, 0#8],
        bulkFrame [0xA0#8, 0x00#8, 0x00#8, 0x00#8, 0x40#8, 0x00#8, 0x00#8, 0x00#8]) := by decide

theorem test_clr_full_buffer :
    seen (exec .clr (blockWith Config.doc .bulk true #v[0xFF#8, 0xFF#8, 0xFF#8, 0xFF#8, 0xFF#8, 0xFF#8])) =
      some ([0#8, 0#8, 0#8, 0#8, 0#8, 0#8],
        bulkFrame [0xA0#8, 0x00#8, 0x00#8, 0x00#8, 0x00#8, 0x00#8, 0x00#8, 0x00#8]) := by decide

theorem test_clr_bitbang_levels :
    (transmit (blockWith Config.doc .bitbang true #v[0#8, 0#8, 0#8, 0#8, 0#8, 0#8])
      (encData Config.doc #v[0#8, 0#8, 0#8, 0#8, 0#8, 0#8])).lines = { cs := true, clk := true, data := false } := by decide

/-! ### Steps -/

theorem test_step_runs_a_table_word :
    seen (step (State.reset.withFetchWord 56 0x3000000000001)) =
      some ([0x80#8, 0#8, 0#8, 0#8, 0#8, 0#8],
        bulkFrame [0xA0#8, 0x00#8, 0x00#8, 0x00#8, 0x00#8, 0x00#8, 0x40#8, 0x00#8]) := by decide

theorem test_step_refuses_reserved :
    why (step (State.reset.issue 0x5000000000000#51)) = some (.reservedOperation 0b101#3) := by decide

theorem test_step_refuses_overlap :
    why (step { State.reset with requests := [.overlap 0x4000000000000#51] }) = some .overlappingRequest := by decide

/-! ### The host's sequences (30_encoding.md R50, 70_reset_and_hazards.md R89, 00_scope.md R4) -/

theorem test_init_frames :
    ((initSeq ChipOpcodes.default).map fun i => match i with | .cmd x => encCmd Config.doc x | _ => []) =
      [[0x85#8, 0x20#8], [0x83#8, 0x00#8], [0x80#8, 0x00#8], [0x80#8, 0xA0#8], [0x80#8, 0x20#8], [0x80#8, 0x60#8]] := by decide

theorem test_decimal_text :
    decimalText 314 = [' ', ' ', ' ', '3', '1', '4'] ∧ decimalText 1000000 = decimalText 999999 ∧
      decimalText (-100000) = ['-', '9', '9', '9', '9', '9'] ∧ truncScaled 314159 100000 2 = 314 := by decide

/-! ### Witnesses: for each statement with hypotheses, a state and operands that meet them -/

theorem test_witness_operation_codes :
    (0x0000000000000#51).extractLsb' 48 3 = 0b000#3 ∧ (0x17F7F7F7F7F7F#51).extractLsb' 48 3 = 0b001#3 ∧
      (0x20000000000FF#51).extractLsb' 48 3 = 0b010#3 ∧ (0x3000000000003#51).extractLsb' 48 3 = 0b011#3 ∧
      (0x4FFFFFFFFFFFF#51).extractLsb' 48 3 = 0b100#3 ∧ 5 ≤ ((0x5000000000000#51).extractLsb' 48 3).toNat ∧
      5 ≤ ((0x7FFFFFFFFFFFF#51).extractLsb' 48 3).toNat := by decide

theorem test_witness_ignored_bits :
    decode 0x2000000000002#51 = .ok (.dot 2#8) ∧
      0x2FFFFFFFFFF02#51 &&& usedBits (.dot 2#8) = 0x2000000000002#51 &&& usedBits (.dot 2#8) := by decide

theorem test_witness_assembled_bounds :
    (assemble (.cmd 255)).isSome ∧ (assemble (.ldg [255, 255, 255, 255, 255, 255])).isSome ∧ (assemble (.dot 0)).isSome ∧
      (assemble (.bat 0)).isSome := by decide

theorem test_witness_step_runs :
    (State.reset.issue 0x4000000000000#51).requests = .request 0x4000000000000#51 :: [] ∧
      decode 0x4000000000000#51 = .ok .clr ∧ decodeTableWord 56 0x4000000000000 = some .clr ∧ State.reset.requests = [] := by
  decide

theorem test_witness_step_refused : ∃ (s : State) (r : Refusal), step s = .refused r :=
  ⟨State.reset.issue 0x7000000000000#51, .reservedOperation 0b111#3, rfl⟩

theorem test_witness_constructions :
    (∃ s, State.construct docBuild = .next s) ∧
      ∃ s, State.construct { docBuild with txmode := .bitbang, csLine := false, clkLine := true, dataLine := true } = .next s :=
  ⟨⟨_, rfl⟩, ⟨_, rfl⟩⟩

theorem test_witness_injective_frames :
    encCmd Config.doc 0x06#8 = encCmd Config.doc 0x06#8 ∧ encData Config.doc State.reset.buf = encData Config.doc State.reset.buf :=
  ⟨rfl, rfl⟩

theorem test_witness_pair_high : Config.doc.params.pairHigh = .odd ∧ evenDoc.params.pairHigh = .even := by decide

theorem test_witness_line_levels :
    (blockWith Config.doc .bitbang true State.reset.buf).txmode = .bitbang ∧ State.reset.txmode = .bulk := by decide

theorem test_witness_default_tags : Config.doc.params.cmdTag = 0b1000#4 ∧ Config.doc.params.dataTag = 0b101#3 := by decide

theorem test_witness_overlay_indices :
    (4 ∈ dotIdx Config.doc ∧ 3 ∈ dotIdx Config.doc ∧ 2 ∈ dotIdx Config.doc) ∧
      0 ∈ batIdx Config.doc ∧ 1 ∈ batIdx Config.doc ∧ 5 ∈ batIdx Config.doc := by decide

/-- A block with two bars and a point lit, one data frame on the bus, and a request to come. -/
def busy : State :=
  { writeThenFlush State.reset (dotBuf Config.doc 2#8 (batBuf Config.doc .medium State.reset.buf)) with
    requests := requestsOf [.bat .full, .cmd 0x06#8] ++ [.request 0x5000000000000#51] }

theorem test_witness_exec_next : ∃ t, exec (.ldg #v[1#8, 2#8, 3#8, 4#8, 5#8, 6#8]) busy = .next t ∧
    (∀ x, Instr.ldg #v[1#8, 2#8, 3#8, 4#8, 5#8, 6#8] ≠ .cmd x) ∧ busy.cfg = Config.doc :=
  ⟨_, rfl, by simp, rfl⟩

theorem test_witness_changed_bytes :
    (∃ t, exec (.dot 3#8) busy = .next t ∧ byteAt t.buf 2 ≠ byteAt busy.buf 2) ∧
      (∃ t, exec (.bat .full) busy = .next t ∧ byteAt t.buf 5 ≠ byteAt busy.buf 5) ∧
      (∃ t, exec (.cmd 0#8) busy = .next t) ∧ (∃ t, exec (.ldg busy.buf) busy = .next t ∧ 0 ∈ batIdx busy.cfg) :=
  ⟨⟨_, rfl, by decide⟩, ⟨_, rfl, by decide⟩, ⟨_, rfl⟩, ⟨_, rfl, by decide⟩⟩

theorem test_witness_two_operations :
    (∃ t u t' u', exec (.dot 2#8) busy = .next t ∧ exec (.bat .full) t = .next u ∧
      exec (.bat .full) busy = .next t' ∧ exec (.dot 2#8) t' = .next u') ∧
    (∃ t u, exec (.ldg busy.buf) busy = .next t ∧ exec (.dot 1#8) t = .next u) ∧
    (∃ t u, exec (.dot 1#8) busy = .next t ∧ exec (.ldg busy.buf) t = .next u ∧ 4 ∈ dotIdx busy.cfg) :=
  ⟨⟨_, _, _, _, rfl, rfl, rfl, rfl⟩, ⟨_, _, rfl, rfl⟩, ⟨_, _, rfl, rfl, by decide⟩⟩

theorem test_witness_invariants :
    OverlayOk busy ∧ TraceOk busy ∧ LinesOk busy ∧ ChipOk busy ∧ (∃ f, lastDataFrame busy.trace = some f) ∧
      busy.csPresent = true ∧ ∃ t, step busy = .next t := by
  have frame : lastDataFrame busy.trace = some (bitsOfBytes (encData busy.cfg busy.buf)) := by decide
  refine ⟨⟨by decide, by decide⟩, ⟨by decide, by decide, by decide⟩, ⟨{ cs := true, clk := false, data := false }, rfl, by decide⟩,
    fun _ f hf => ?_, ⟨_, frame⟩, rfl, _, rfl⟩
  rw [frame] at hf
  exact (Option.some.inj hf).symm

theorem test_witness_reachable : Reachable { State.reset with requests := requestsOf [.clr] } :=
  .hosted _ (.built test_reset_is_a_construction)

theorem test_witness_other_history :
    busy.cfg = { busy with trace := [], lines := { cs := true, clk := true, data := true } }.cfg ∧
      busy.buf = { busy with trace := [], lines := { cs := true, clk := true, data := true } }.buf ∧
      (∃ t, exec .clr busy = .next t) ∧
      ∃ t, exec .clr { busy with trace := [], lines := { cs := true, clk := true, data := true } } = .next t :=
  ⟨rfl, rfl, ⟨_, rfl⟩, ⟨_, rfl⟩⟩

theorem test_witness_request_list :
    busy.requests = requestsOf [.bat .full, .cmd 0x06#8] ++ [.request 0x5000000000000#51] ∧
      [Instr.bat .full, .cmd 0x06#8][0]? = some (.bat .full) ∧ [Instr.bat .full, .cmd 0x06#8][1]? = some (.cmd 0x06#8) :=
  ⟨rfl, rfl, rfl⟩

theorem test_witness_well_behaved : wellBehaved (requestsOf [.cmd 0#8, .dot 255#8, .clr]) = true := by decide

end Sys2Proof.Tests
end

/-! The obligations of 00_scope.md: construction and well-formedness (R7), the overlay partition (R7, R15), one step
per host request (R10). -/

namespace Sys2Proof

/-! ### Well-formedness, check by check, in the form R7 writes it -/

theorem Params.dotsInRange_iff (p : Params) : p.dotsInRange = true ↔ 3 ≤ p.dotBase ∧ p.dotBase ≤ 6 := by
  simp [dotsInRange]

theorem Params.barsInRange_iff (p : Params) : p.barsInRange = true ↔ ∀ i ∈ [p.b1, p.b2, p.b3], i < 6 := by
  simp [barsInRange, and_assoc]

theorem Params.barsDiffer_iff (p : Params) : p.barsDiffer = true ↔ [p.b1, p.b2, p.b3].Nodup := by
  simp [barsDiffer, and_assoc]

theorem Params.barsAreNoDots_iff (p : Params) :
    p.barsAreNoDots = true ↔ ∀ i ∈ [p.b1, p.b2, p.b3], ¬ p.isDotIdx i = true := by
  simp [barsAreNoDots, and_assoc]

/-- From `DOT_BASE = 3` on no subtraction is cut off at 0, so the sums of the check say what the differences of R7 say. -/
theorem Params.isDotIdx_iff_mem (p : Params) (h : 3 ≤ p.dotBase) (i : Nat) :
    p.isDotIdx i = true ↔ i ∈ [p.dotBase - 1, p.dotBase - 2, p.dotBase - 3] := by
  simp only [isDotIdx, Bool.or_eq_true, decide_eq_true_eq, List.mem_cons, List.not_mem_nil, or_false]
  omega

theorem Params.wellFormed_iff (p : Params) :
    p.wellFormed = true ↔
      3 ≤ p.dotBase ∧ p.dotBase ≤ 6 ∧ [p.b1, p.b2, p.b3].Nodup ∧
        ∀ i ∈ [p.b1, p.b2, p.b3], i < 6 ∧ i ∉ [p.dotBase - 1, p.dotBase - 2, p.dotBase - 3] := by
  rw [wellFormed, Bool.and_eq_true, Bool.and_eq_true, Bool.and_eq_true, p.dotsInRange_iff, p.barsInRange_iff,
    p.barsDiffer_iff, p.barsAreNoDots_iff]
  constructor
  · rintro ⟨⟨⟨⟨hlo, hhi⟩, hlt⟩, hnodup⟩, hdot⟩
    exact ⟨hlo, hhi, hnodup, fun i hi => ⟨hlt i hi, fun hmem => hdot i hi ((p.isDotIdx_iff_mem hlo i).2 hmem)⟩⟩
  · rintro ⟨hlo, hhi, hnodup, hbars⟩
    exact ⟨⟨⟨⟨hlo, hhi⟩, fun i hi => (hbars i hi).1⟩, hnodup⟩,
      fun i hi hdot => (hbars i hi).2 ((p.isDotIdx_iff_mem hlo i).1 hdot)⟩

/-! ### A table word as a request -/

theorem decodeTableWord_eq_some {nbits w : Nat} {i : Instr} :
    decodeTableWord nbits w = some i ↔ ∃ r, requestOfTableWord nbits w = some r ∧ decode r = .ok i := by
  unfold decodeTableWord
  cases requestOfTableWord nbits w with
  | none => simp
  | some r => cases hd : decode r <;> simp [hd]

end Sys2Proof

namespace Sys2Proof.Machine

/-! ### Construction -/

/-- Construction answers exactly when neither of its two refusals applies (U7, D17; R86, D20). -/
theorem construct_next_iff (b : Build) :
    (∃ s, State.construct b = .next s) ↔
      (b.txmode = .bitbang → b.clkLine = true ∧ b.dataLine = true) ∧ b.params.wellFormed = true := by
  have hlines : (b.txmode = .bitbang → b.clkLine = true ∧ b.dataLine = true) ↔
      ¬ (b.txmode = .bitbang ∧ (b.clkLine && b.dataLine) = false) := by simp
  rw [hlines, State.construct]
  split
  case isTrue hmissing => simp [hmissing]
  case isFalse hsupplied =>
    split
    case isTrue hwf => exact ⟨fun _ => ⟨hsupplied, hwf⟩, fun _ => ⟨_, rfl⟩⟩
    case isFalse hwf => simp [hwf]

/-- Settles O9: construction answers exactly without a refusal, and the well-formedness check is R7's arithmetic. -/
theorem constructionNeedsAWellFormedConfiguration : Obligations.ConstructionNeedsAWellFormedConfiguration := by
  unfold Obligations.ConstructionNeedsAWellFormedConfiguration
  intro b
  rw [construct_next_iff, b.params.wellFormed_iff]

/-! ### The overlay partition -/

theorem isDotIdx_eq_false_of_mem_batIdx {c : Config} {i : Pos} (h : i ∈ batIdx c) : c.params.isDotIdx i = false := by
  obtain ⟨-, -, -, h1, h2, h3⟩ := c.index_facts
  obtain hi | hi | hi := (mem_batIdx c i).1 h
  · rwa [hi]
  · rwa [hi]
  · rwa [hi]

/-- No index carries both a decimal point and a battery bar. -/
theorem dotIdx_disjoint_batIdx (c : Config) : (dotIdx c).Disjoint (batIdx c) := by
  intro i hdot hbat
  rw [mem_dotIdx, isDotIdx_eq_false_of_mem_batIdx hbat] at hdot
  cases hdot

/-- Six different indices among six positions leave none out. -/
theorem mem_dotIdx_append_batIdx (c : Config) (i : Pos) : i ∈ dotIdx c ++ batIdx c := by
  have hnodup : (dotIdx c ++ batIdx c).Nodup :=
    (dotIdx_nodup c).append (batIdx_nodup c) (dotIdx_disjoint_batIdx c)
  have hcard : (dotIdx c ++ batIdx c).toFinset.card = Fintype.card Pos := List.toFinset_card_of_nodup hnodup
  have huniv := (Finset.card_eq_iff_eq_univ _).1 hcard
  exact List.mem_toFinset.1 (huniv ▸ Finset.mem_univ i)

/-- Settles O11: the two lists are disjoint, and together they are six different positions. -/
theorem overlayIndicesPartitionThePositions : Obligations.OverlayIndicesPartitionThePositions := by
  unfold Obligations.OverlayIndicesPartitionThePositions
  intro c i
  refine ⟨dotIdx_nodup c, batIdx_nodup c, rfl, rfl, fun hdot hbat => dotIdx_disjoint_batIdx c hdot hbat, fun hbat => ?_⟩
  exact (List.mem_append.1 (mem_dotIdx_append_batIdx c i)).resolve_right hbat

/-! ### One step, by the host's next move -/

theorem perform_of_decode_ok {w : ReqWord} {i : Instr} (h : decode w = .ok i) (s : State) : perform w s = exec i s := by
  simp [perform, h]

theorem step_of_request {s : State} {w : ReqWord} {rest : List HostMove} (h : s.requests = .request w :: rest) :
    step s = perform w { s with requests := rest } := by
  simp [step, nextMove, h]

theorem step_of_no_request {s : State} (h : s.requests = []) : step s = .next s := by
  simp [step, nextMove_none.2 h]

/-- Issuing a request and taking it leaves the state the block performs it on. -/
theorem step_issue (s : State) (w : ReqWord) : step (s.issue w) = perform w s :=
  step_of_request (issue_requests s w)

theorem withFetchWord_of_request {nbits w : Nat} {r : ReqWord} (h : requestOfTableWord nbits w = some r) (s : State) :
    s.withFetchWord nbits w = s.issue r := by
  simp [State.withFetchWord, h]

/-- Settles O7: by the host's next move, which is a listed request, a table word just placed, or none. -/
theorem stepRunsTheDecodedRequest : Obligations.StepRunsTheDecodedRequest := by
  unfold Obligations.StepRunsTheDecodedRequest
  refine ⟨fun s w rest i hreq hdec => ?_, fun s nbits w i hdec => ?_, fun s => step_of_no_request⟩
  · rw [step_of_request hreq, perform_of_decode_ok hdec]
  · obtain ⟨r, hr, hdec⟩ := decodeTableWord_eq_some.1 hdec
    rw [withFetchWord_of_request hr, step_issue, perform_of_decode_ok hdec]

end Sys2Proof.Machine

/-! The obligations of 10_state.md: the line levels (R19), the straps (R18) and the trace, whose last data frame shows
the buffer (R22, R33). -/

namespace Sys2Proof.Machine

/-! ### The state a step leaves -/

/-- A step that answers a next state was idle, or took the next move, wrote the buffer of one instruction and transmitted
that instruction's one frame. -/
theorem step_next_transmit {s t : State} (h : step s = .next t) :
    t = s ∨ ∃ (rest : List HostMove) (i : Instr),
      t = transmit (({ s with requests := rest } : State).withBuf (bufOf s.cfg s.buf i))
        (frameOf s.cfg (bufOf s.cfg s.buf i) i) := by
  obtain rfl | ⟨w, rest, i, -, -, hexec⟩ := step_next h
  · exact .inl rfl
  · rw [exec_eq] at hexec
    cases hexec
    exact .inr ⟨rest, i, rfl⟩

/-- Settles O39: an idle step changes nothing, and any other one appends one frame to the trace. -/
theorem stepNeverChangesStrapsNorPastEvents : Obligations.StepNeverChangesStrapsNorPastEvents := by
  unfold Obligations.StepNeverChangesStrapsNorPastEvents
  intro s t h
  obtain rfl | ⟨rest, i, rfl⟩ := step_next_transmit h
  · exact ⟨rfl, rfl, rfl, List.prefix_rfl⟩
  · exact ⟨rfl, rfl, rfl, List.prefix_append _ _⟩

/-! ### The line levels a frame leaves -/

theorem foldl_drive_bits_cs (bits : List Bit) (l : Lines) :
    ((bits.flatMap bitEvents).foldl Lines.drive l).cs = l.cs := by
  induction bits generalizing l with
  | nil => rfl
  | cons x bits ih => rw [List.flatMap_cons, List.foldl_append, ih]; rfl

/-- The last bit clocked out fixes both lines, whatever was sent before it (R56). -/
theorem foldl_drive_bits_concat (bits : List Bit) (x : Bit) (l : Lines) :
    ((bits ++ [x]).flatMap bitEvents).foldl Lines.drive l = { cs := l.cs, clk := true, data := x } := by
  have hcs := foldl_drive_bits_cs bits l
  simp [List.flatMap_append, bitEvents, hcs]

/-- Bit 0 of the last byte is the last bit on the wire (R26). -/
theorem bitsOfBytes_concat (e : List Byte) (b : Byte) :
    ∃ bits, bitsOfBytes (e ++ [b]) = bits ++ [b.getLsbD 0] := by
  refine ⟨bitsOfBytes e ++ (bitsOfByte b).dropLast, ?_⟩
  simp [bitsOfBytes, bitsOfByte]

theorem foldl_drive_bodyEvents_bulk (e : List Byte) (l : Lines) :
    (bodyEvents .bulk e).foldl Lines.drive l = l := rfl

theorem foldl_drive_bodyEvents_bitbang (e : List Byte) (b : Byte) (l : Lines) :
    (bodyEvents .bitbang (e ++ [b])).foldl Lines.drive l = { cs := l.cs, clk := true, data := b.getLsbD 0 } := by
  obtain ⟨bits, hbits⟩ := bitsOfBytes_concat e b
  rw [bodyEvents, bitbangEvents, hbits, foldl_drive_bits_concat]

/-- With a chip-select line a frame is its body between the two edges. -/
theorem foldl_drive_frameEvents_true (tx : TxMode) (e : List Byte) (l : Lines) :
    (frameEvents tx true e).foldl Lines.drive l =
      { (bodyEvents tx e).foldl Lines.drive { l with cs := false } with cs := true } := by
  simp [frameEvents]

/-- Without one it is the body alone. -/
theorem frameEvents_false (tx : TxMode) (e : List Byte) : frameEvents tx false e = bodyEvents tx e := by
  simp [frameEvents]

/-- Settles O21: the body fixes `CLK` and `DATA` or leaves both, and the edge after it releases `CS`. -/
theorem lineLevelsAfterAFrame : Obligations.LineLevelsAfterAFrame := by
  unfold Obligations.LineLevelsAfterAFrame
  constructor
  · intro s e b htx
    rw [transmit_lines, htx]
    cases s.csPresent with
    | true => rw [foldl_drive_frameEvents_true, foldl_drive_bodyEvents_bitbang, Bool.true_or]
    | false => rw [frameEvents_false, foldl_drive_bodyEvents_bitbang, Bool.false_or]
  · intro s e htx
    rw [transmit_lines, htx]
    cases s.csPresent with
    | true => rw [foldl_drive_frameEvents_true, foldl_drive_bodyEvents_bulk, Bool.true_or]
    | false => rw [frameEvents_false, foldl_drive_bodyEvents_bulk, Bool.false_or]

/-! ### The line levels a step leaves -/

/-- A trace that ends with chip-select released leaves `CS` at 1, from any level that agrees with its start. -/
theorem foldl_drive_cs_of_bracketed {low : Bool} {es : List Event} (h : bracketed low es = true) (l : Lines)
    (hl : l.cs = !low) : (es.foldl Lines.drive l).cs = true := by
  induction es generalizing low l with
  | nil => rw [bracketed] at h; rw [List.foldl_nil, hl, h]
  | cons e es ih =>
    rw [List.foldl_cons]
    cases e with
    | cs v =>
      cases v with
      | true => exact ih (Bool.and_eq_true_iff.1 h).2 _ rfl
      | false => exact ih (Bool.and_eq_true_iff.1 h).2 _ rfl
    | clk v => exact ih (Bool.and_eq_true_iff.1 h).2 _ hl
    | data v => exact ih (Bool.and_eq_true_iff.1 h).2 _ hl
    | bulk bytes n => exact ih (Bool.and_eq_true_iff.1 h).2 _ hl

/-- Between requests chip-select stands released. -/
theorem cs_released_of_linesOk {s : State} (hlines : LinesOk s) (htrace : TraceOk s) (hcs : s.csPresent = true) :
    s.lines.cs = true := by
  obtain ⟨before, hbefore, hlevels⟩ := hlines
  obtain ⟨-, -, hbracketed⟩ := htrace
  rw [hlevels]
  exact foldl_drive_cs_of_bracketed (hbracketed hcs) before hbefore

/-- Emitted events drive the lines as they extend the trace. -/
theorem linesOk_of_append {s t : State} {es : List Event} (h : LinesOk s) (htrace : t.trace = s.trace ++ es)
    (hlines : t.lines = es.foldl Lines.drive s.lines) : LinesOk t := by
  obtain ⟨before, hbefore, hlevels⟩ := h
  exact ⟨before, hbefore, by rw [hlines, htrace, List.foldl_append, hlevels]⟩

/-- Settles O36: an idle step leaves `CS` as the bracketed trace left it, and any other one ends in the edge that
releases it. -/
theorem stepKeepsLinesAtTheLastDrivenLevel : Obligations.StepKeepsLinesAtTheLastDrivenLevel := by
  unfold Obligations.StepKeepsLinesAtTheLastDrivenLevel
  intro s t hlines h
  obtain rfl | ⟨rest, i, rfl⟩ := step_next_transmit h
  · exact ⟨hlines, cs_released_of_linesOk hlines⟩
  · refine ⟨linesOk_of_append hlines rfl rfl, fun _ hcs => ?_⟩
    rw [transmit_csPresent] at hcs
    rw [transmit_lines, hcs, foldl_drive_frameEvents_true]

/-! ### The last data frame on the bus -/

/-- A receiver that waits for a frame takes exactly the bits of the one transmitted. -/
theorem deframe_frameEvents (tx : TxMode) (d : Bit) (e : List Byte) :
    deframe none d (frameEvents tx true e) = [bitsOfBytes e] := by
  cases tx with
  | bulk => simp [frameEvents, bodyEvents, bulkEvents, deframe]
  | bitbang => simp [frameEvents, bodyEvents, bitbangEvents, deframe, deframe_bits]

/-- One more frame on the bus is the last data frame when it has 8 bytes, and leaves the last one as it was otherwise. -/
theorem lastDataFrame_append_frameEvents {trace : List Event} (h : bracketed false trace = true) (tx : TxMode)
    (e : List Byte) :
    lastDataFrame (trace ++ frameEvents tx true e) =
      if e.length = 8 then some (bitsOfBytes e) else lastDataFrame trace := by
  have hlen : (bitsOfBytes e).length = 64 ↔ e.length = 8 := by rw [bitsOfBytes_length]; omega
  rw [lastDataFrame, deframe_append none rfl false _ _ h, deframe_frameEvents, List.filter_append]
  by_cases he : e.length = 8
  · simp [he, hlen]
  · simp [he, hlen, lastDataFrame]

/-- An operation leaves the buffer and emits a frame too short for a data frame, or its frame shows the buffer it leaves. -/
theorem frameOf_cases (c : Config) (buf : SixBytes) (i : Instr) :
    (bufOf c buf i = buf ∧ (frameOf c (bufOf c buf i) i).length ≠ 8) ∨
      frameOf c (bufOf c buf i) i = encData c (bufOf c buf i) := by
  cases i with
  | cmd opcode => exact .inl ⟨rfl, by rw [frameOf, encCmd_length]; decide⟩
  | ldg _ => exact .inr rfl
  | dot _ => exact .inr rfl
  | bat _ => exact .inr rfl
  | clr => exact .inr rfl

/-- Settles O37: the frame a step appends is no data frame and the buffer stays, or it is the last data frame and shows
the new buffer. -/
theorem stepKeepsTheChipAbreastOfTheBuffer : Obligations.StepKeepsTheChipAbreastOfTheBuffer := by
  unfold Obligations.StepKeepsTheChipAbreastOfTheBuffer
  intro s t htrace hchip h
  obtain rfl | ⟨rest, i, rfl⟩ := step_next_transmit h
  · exact hchip
  intro hcs f hf
  obtain ⟨-, -, hbracketed⟩ := htrace
  simp only [transmit_csPresent, transmit_trace, transmit_cfg, transmit_buf, withBuf_csPresent, withBuf_trace,
    withBuf_txmode, withBuf_cfg, withBuf_buf] at hcs hf ⊢
  rw [hcs, lastDataFrame_append_frameEvents (hbracketed hcs)] at hf
  obtain ⟨hbuf, hshort⟩ | hframe := frameOf_cases s.cfg s.buf i
  · rw [if_neg hshort] at hf
    rw [hbuf]
    exact hchip hcs f hf
  · rw [hframe, if_pos (encData_length _ _)] at hf
    exact (Option.some.inj hf).symm

end Sys2Proof.Machine

/-! The obligations of 20_memory.md: the order of the bits on the wire (R25 to R27), what an operation writes (R30), and
one frame a request in request order (R32). -/

namespace Sys2Proof

/-! ### A word the encoder writes -/

theorem opField_encode_ldg (g : SixBytes) : opField (encode (.ldg g)) = 1#3 := by
  rw [opField, encode]
  iterate 6 rw [BitVec.extractLsb'_append_eq_of_le (by omega)]
  rfl

theorem lane_encode_ldg (g : SixBytes) (i : Pos) : lane (argField (encode (.ldg g))) i = byteAt g i := by
  apply BitVec.eq_of_getLsbD_eq
  intro j hj
  simp only [lane, argField, encode, BitVec.getLsbD_extractLsb', BitVec.getLsbD_append]
  fin_cases i <;> grind

/-- An encoded instruction is read back as itself. -/
theorem decode_encode (i : Instr) : decode (encode i) = .ok i := by
  cases i with
  | cmd opcode => revert opcode; decide
  | ldg g =>
    have hlanes : lanes (argField (encode (.ldg g))) = g :=
      Machine.buf_ext fun i => (lanes_get _ i).trans (lane_encode_ldg g i)
    rw [decode_ldg (opField_encode_ldg g), hlanes]
  | dot p => revert p; decide
  | bat level => cases level <;> decide
  | clr => decide

end Sys2Proof

namespace Sys2Proof.Machine

/-! ### The bits of a frame in wire order -/

theorem msbBits_eq_map_reverse_range {n : Nat} (v : BitVec n) : msbBits v = (List.range n).reverse.map v.getLsbD := by
  apply List.ext_getElem <;> simp [msbBits]

/-- Bytes sent most-significant first carry the bits of the value from the top down (R25 step 3, R26). -/
theorem bitsOfBytes_reverse_bytes {n : Nat} (v : BitVec n) (k : Nat) :
    bitsOfBytes ((List.range k).map fun j => v.extractLsb' (8 * j) 8).reverse =
      (List.range (8 * k)).reverse.map v.getLsbD := by
  induction k with
  | zero => rfl
  | succ k ih =>
    have hbits : bitsOfByte (v.extractLsb' (8 * k) 8) = ((List.range 8).map (8 * k + ·)).reverse.map v.getLsbD := by
      simp [bitsOfByte, List.range_succ]
    rw [List.range_succ, List.map_append, List.reverse_append, Nat.mul_succ, List.range_add, List.reverse_append,
      List.map_append, ← ih, ← hbits]
    rfl

/-- The reversed image of a container is the container from its top bit down (R27). -/
theorem bitsOfBytes_reverse_leImage (k : Nat) (v : BitVec (8 * k)) :
    bitsOfBytes (reverseBytes (leImage k v)) = msbBits v := by
  rw [msbBits_eq_map_reverse_range, ← bitsOfBytes_reverse_bytes v k]
  rfl

theorem sampled_encCmd (c : Config) (tx : TxMode) (cs : Bool) (d : Bit) (x : Byte) :
    sampled d (frameEvents tx cs (encCmd c x)) = msbBits (cmdContainer c x) := by
  rw [sampled_frameEvents]
  exact bitsOfBytes_reverse_leImage 2 (cmdContainer c x)

theorem sampled_encData (c : Config) (tx : TxMode) (cs : Bool) (d : Bit) (b : SixBytes) :
    sampled d (frameEvents tx cs (encData c b)) = msbBits (dataContainer c b) := by
  rw [sampled_frameEvents]
  exact bitsOfBytes_reverse_leImage 8 (dataContainer c b)

/-- Settles O18: a frame's bytes are the reversed image of its container, and a container is the concatenation of its
fields. -/
theorem wireCarriesTheFieldsInOrder : Obligations.WireCarriesTheFieldsInOrder := by
  unfold Obligations.WireCarriesTheFieldsInOrder
  intro c tx cs d
  refine ⟨fun x => ⟨sampled_encCmd c tx cs d x, ?_⟩, fun b => ⟨sampled_encData c tx cs d b, ?_⟩⟩
  · simp only [cmdContainer, msbBits_append]
  · simp only [dataContainer, msbBits_append]

/-! ### What an operation leaves, field by field -/

/-- Every operation writes its buffer, appends its one frame and changes neither configuration nor straps nor moves. -/
theorem exec_next {i : Instr} {s t : State} (h : exec i s = .next t) :
    t.cfg = s.cfg ∧ t.txmode = s.txmode ∧ t.csPresent = s.csPresent ∧ t.requests = s.requests ∧
      t.buf = bufOf s.cfg s.buf i ∧
      t.trace = s.trace ++ frameEvents s.txmode s.csPresent (frameOf s.cfg t.buf i) := by
  rw [exec_eq] at h
  cases h
  exact ⟨rfl, rfl, rfl, rfl, rfl, rfl⟩

theorem exec_next_buf {i : Instr} {s t : State} (h : exec i s = .next t) : t.buf = bufOf s.cfg s.buf i := by
  obtain ⟨-, -, -, -, hbuf, -⟩ := exec_next h
  exact hbuf

/-! ### What an operation leaves, byte by byte -/

theorem ldgBuf_get (c : Config) (g buf : SixBytes) (j : Pos) :
    byteAt (ldgBuf c g buf) j = (if j ∈ dotIdx c then 0#8 else byteAt buf j &&& OV) ||| glyphMask (byteAt g j) := by
  rw [ldgBuf, foldl_orGlyph_get, clrLetters_get]

theorem dotBuf_get (c : Config) (p : Byte) (buf : SixBytes) (j : Pos) :
    byteAt (dotBuf c p buf) j =
      if j ∈ dotIdx c then (byteAt buf j &&& SEG) ||| (if dotIndex c p = some j then OV else 0#8) else byteAt buf j := by
  have hnodup : (dotIndex c p).toList.Nodup := Option.toList_nodup _
  rw [dotBuf, foldl_setOv_get _ hnodup, clrDots_get]
  simp only [Option.mem_toList]
  by_cases hj : dotIndex c p = some j
  · simp [hj, dotIndex_mem hj]
  · simp [hj]

theorem batBuf_get (c : Config) (level : BatLevel) (buf : SixBytes) (j : Pos) :
    byteAt (batBuf c level buf) j =
      if j ∈ batIdx c then (byteAt buf j &&& SEG) ||| (if j ∈ batterySet c level then OV else 0#8) else byteAt buf j := by
  rw [batBuf, foldl_setOv_get _ (batterySet_nodup c level), clrBattery_get]
  by_cases hj : j ∈ batterySet c level
  · simp [hj, (batterySet_sublist c level).subset hj]
  · simp [hj]

/-- A byte that a write of overlay bits changes is among the bytes written, and keeps its glyph. -/
theorem changed_by_overlay_write {before after : Byte} {written lit : Prop} [Decidable written] [Decidable lit]
    (h : after = if written then (before &&& SEG) ||| (if lit then OV else 0#8) else before) (hne : after ≠ before) :
    written ∧ seg after = seg before := by
  by_cases hw : written
  · rw [if_pos hw] at h
    refine ⟨hw, ?_⟩
    rw [h]
    split <;> simp
  · exact absurd (h.trans (if_neg hw)) hne

/-- Settles O28: the fields by the one shape of all operations, the bytes by what each write leaves in them. -/
theorem operationsChangeNothingElse : Obligations.OperationsChangeNothingElse := by
  unfold Obligations.OperationsChangeNothingElse
  refine ⟨fun i s t h => ?_, fun x s t h i => ?_, fun g s t h i hi => ?_, fun p s t h i hi => ?_,
    fun level s t h i hi => ?_⟩
  · obtain ⟨hcfg, htx, hcs, hreq, -, htrace⟩ := exec_next h
    exact ⟨hcfg, htx, hcs, hreq, htrace ▸ List.prefix_append _ _⟩
  · rw [exec_next_buf h, bufOf]
  · have hdot : i ∉ dotIdx s.cfg := fun hdot => dotIdx_disjoint_batIdx s.cfg hdot hi
    rw [exec_next_buf h, bufOf, ldgBuf_get, if_neg hdot]
    simp
  · have hbyte := dotBuf_get s.cfg p s.buf i
    exact changed_by_overlay_write ((congrArg (byteAt · i) (exec_next_buf h)).trans hbyte) hi
  · have hbyte := batBuf_get s.cfg level s.buf i
    exact changed_by_overlay_write ((congrArg (byteAt · i) (exec_next_buf h)).trans hbyte) hi

/-! ### A run over a list of instructions -/

/-- The request of an instruction completes: its step is the instruction, on the state with that request taken. -/
theorem step_of_instr {s : State} {i : Instr} {rest : List HostMove} (h : s.requests = .request (encode i) :: rest) :
    ∃ t, step s = .next t ∧ exec i { s with requests := rest } = .next t :=
  ⟨_, by rw [step_of_request h, perform_of_decode_ok (decode_encode i), exec_eq], exec_eq i _⟩

/-- The run over the requests of a list of instructions, by induction on the list: the first step is the first
instruction, and the rest of the run starts from the state it leaves. -/
theorem run_requestsOf (is : List Instr) (rest : List HostMove) (s : State) (h : s.requests = requestsOf is ++ rest) :
    ∃ (t : State) (frames : List (List Byte)), Host.Core.run core is.length s = .next t ∧ t.requests = rest ∧
      t.trace = s.trace ++ frames.flatMap (frameEvents s.txmode s.csPresent) ∧ frames.length = is.length ∧
      ∀ (k : Nat) (i : Instr), is[k]? = some i → ∃ u v : State,
        Host.Core.run core k s = .next u ∧ Host.Core.run core (k + 1) s = .next v ∧
        exec i { u with requests := v.requests } = .next v ∧ frames[k]? = some (frameOf s.cfg v.buf i) := by
  induction is generalizing s with
  | nil => exact ⟨s, [], rfl, h, by simp, rfl, by simp⟩
  | cons i is ih =>
    obtain ⟨s', hstep, hexec⟩ := step_of_instr h
    obtain ⟨hcfg, htx, hcs, hreq, -, htrace⟩ := exec_next hexec
    obtain ⟨t, frames, hrun, hrest, hframes, hlen, hk⟩ := ih s' hreq
    rw [hcfg] at hk
    rw [htrace, htx, hcs] at hframes
    refine ⟨t, frameOf s.cfg s'.buf i :: frames, (run_of_step hstep _).trans hrun, hrest, by simpa using hframes,
      congrArg (· + 1) hlen, fun k j hj => ?_⟩
    cases k with
    | zero =>
      cases hj
      exact ⟨s, s', rfl, run_of_step hstep 0, hreq ▸ hexec, rfl⟩
    | succ k =>
      rw [run_of_step hstep, run_of_step hstep]
      exact hk k j hj

/-- Settles O41: the run over the list, with the frame of each kind of request written out. -/
theorem runEmitsOneFramePerRequestInOrder : Obligations.RunEmitsOneFramePerRequestInOrder := by
  unfold Obligations.RunEmitsOneFramePerRequestInOrder
  exact run_requestsOf

end Sys2Proof.Machine

/-! The obligations of 30_encoding.md: the request word (R37 to R43, R49), the bytes of the two frames (R44 to R46) and how
a receiver tells them apart (R48). -/

namespace Sys2Proof

/-! ### Decoding an encoded instruction -/

/-- Settles O3: constructor by constructor, the operation code and each operand are read back where they were written. -/
theorem decodeOfEncodeIsTheInstruction : Obligations.DecodeOfEncodeIsTheInstruction := decode_encode

/-! ### The operation code selects the operation -/

theorem lane_argField (w : ReqWord) (i : Pos) : lane (argField w) i = w.extractLsb' (8 * i) 8 := by
  rw [lane, argField, BitVec.extractLsb'_extractLsb'_of_le (by omega)]

theorem lane_zero_argField (w : ReqWord) : lane (argField w) 0 = w.extractLsb' 0 8 := lane_argField w 0

theorem levelBits_argField (w : ReqWord) : (argField w).extractLsb' 0 2 = w.extractLsb' 0 2 := by
  rw [argField, BitVec.extractLsb'_extractLsb'_of_le (by omega)]

/-- Settles O2: each operation code is one branch of the decoder, and the operand fields are fields of the whole word. -/
theorem operationCodeSelectsOperationAndOperands : Obligations.OperationCodeSelectsOperationAndOperands := by
  unfold Obligations.OperationCodeSelectsOperationAndOperands
  intro w
  rw [← lane_zero_argField, ← levelBits_argField]
  refine ⟨decode_cmd, fun h => ⟨_, decode_ldg h, fun i => ?_⟩, decode_dot,
    fun h => ⟨_, decode_bat h, BatLevel.code_ofCode _⟩, decode_clr, decode_reserved⟩
  rw [lanes_get, lane_argField]

/-- A word that decodes has one of the five operation codes, and its instruction holds the operands of that code. -/
theorem decode_ok_cases {w : ReqWord} {i : Instr} (h : decode w = .ok i) :
    (opField w = 0#3 ∧ i = .cmd (w.extractLsb' 0 8)) ∨
    (opField w = 1#3 ∧ i = .ldg (lanes (argField w))) ∨
    (opField w = 2#3 ∧ i = .dot (w.extractLsb' 0 8)) ∨
    (opField w = 3#3 ∧ i = .bat (BatLevel.ofCode (w.extractLsb' 0 2))) ∨
    (opField w = 4#3 ∧ i = .clr) := by
  rw [← lane_zero_argField, ← levelBits_argField]
  unfold decode at h
  split_ifs at h with hcmd hldg hdot hbat hclr <;> cases h
  · exact .inl ⟨hcmd, rfl⟩
  · exact .inr (.inl ⟨hldg, rfl⟩)
  · exact .inr (.inr (.inl ⟨hdot, rfl⟩))
  · exact .inr (.inr (.inr (.inl ⟨hbat, rfl⟩)))
  · exact .inr (.inr (.inr (.inr ⟨hclr, rfl⟩)))

/-! ### The word an instruction is encoded to -/

/-- A word cleared between its three top bits and its `n` low bits is those two fields, with zeros between. -/
theorem append_eq_and_mask {m n : Nat} {w : BitVec (3 + m + n)} {op : BitVec 3} (h : w.extractLsb' (n + m) 3 = op) :
    op ++ 0#m ++ w.extractLsb' 0 n = w &&& (BitVec.allOnes 3 ++ 0#m ++ BitVec.allOnes n) := by
  have hw : w = op ++ w.extractLsb' n m ++ w.extractLsb' 0 n := by
    rw [← h, BitVec.extractLsb'_append_extractLsb'_eq_extractLsb' rfl,
      BitVec.extractLsb'_append_extractLsb'_eq_extractLsb' (Nat.zero_add n).symm, BitVec.extractLsb'_eq_self]
  conv_rhs => rw [hw, BitVec.and_append, BitVec.and_append, BitVec.and_allOnes, BitVec.and_allOnes, BitVec.and_zero]

/-- The lanes of a word, put together again behind its operation code, are the word. -/
theorem encode_ldg_lanes {w : ReqWord} (h : opField w = 1#3) : encode (.ldg (lanes (argField w))) = w := by
  have hop : (1#3 : BitVec 3) = w.extractLsb' 48 3 := h.symm
  simp only [encode, lanes_get, lane_argField]
  rw [hop]
  iterate 6 rw [BitVec.extractLsb'_append_extractLsb'_eq_extractLsb' (by rfl)]
  exact BitVec.extractLsb'_eq_self

theorem encode_eq_and_usedBits {w : ReqWord} {i : Instr} (h : decode w = .ok i) : encode i = w &&& usedBits i := by
  obtain ⟨hop, rfl⟩ | ⟨hop, rfl⟩ | ⟨hop, rfl⟩ | ⟨hop, rfl⟩ | ⟨hop, rfl⟩ := decode_ok_cases h
  · exact append_eq_and_mask (m := 40) (n := 8) hop
  · exact (encode_ldg_lanes hop).trans (BitVec.and_allOnes (x := w)).symm
  · exact append_eq_and_mask (m := 40) (n := 8) hop
  · rw [encode, BatLevel.code_ofCode]
    exact append_eq_and_mask (m := 46) (n := 2) hop
  · exact (BitVec.append_zero_width (4#3 ++ 0#48) _).symm.trans (append_eq_and_mask (m := 48) (n := 0) hop)

/-- Settles O4: by operation code, the operands of the word are put back where the mask keeps them. -/
theorem encodeOfDecodeClearsIgnoredBits : Obligations.EncodeOfDecodeClearsIgnoredBits := by
  unfold Obligations.EncodeOfDecodeClearsIgnoredBits
  exact fun w i => encode_eq_and_usedBits

/-! ### Ignored bits -/

theorem encode_injective {i j : Instr} (h : encode i = encode j) : i = j :=
  Except.ok.inj ((decode_encode i).symm.trans (h ▸ decode_encode j))

/-- The operation code is among the bits every operation uses. -/
theorem opField_and_usedBits (w : ReqWord) (i : Instr) : opField (w &&& usedBits i) = opField w := by
  have hmask : (usedBits i).extractLsb' 48 3 = BitVec.allOnes 3 := by cases i <;> simp [usedBits]
  rw [opField, BitVec.extractLsb'_and, hmask, BitVec.and_allOnes, opField]

/-- The operation code alone says whether a word decodes, and which bits are then used. -/
theorem decode_ok_of_opField_eq {v w : ReqWord} {i : Instr} (h : decode w = .ok i) (hop : opField v = opField w) :
    ∃ j, decode v = .ok j ∧ usedBits j = usedBits i := by
  obtain ⟨hw, rfl⟩ | ⟨hw, rfl⟩ | ⟨hw, rfl⟩ | ⟨hw, rfl⟩ | ⟨hw, rfl⟩ := decode_ok_cases h
  · exact ⟨_, decode_cmd (hop.trans hw), rfl⟩
  · exact ⟨_, decode_ldg (hop.trans hw), rfl⟩
  · exact ⟨_, decode_dot (hop.trans hw), rfl⟩
  · exact ⟨_, decode_bat (hop.trans hw), rfl⟩
  · exact ⟨_, decode_clr (hop.trans hw), rfl⟩

/-- Settles O5: the two words have one operation code, so `v` decodes too, and to an instruction with the same encoding. -/
theorem ignoredBitsDoNotMatter : Obligations.IgnoredBitsDoNotMatter := by
  unfold Obligations.IgnoredBitsDoNotMatter
  intro v w i hw hused
  have hop : opField v = opField w := by rw [← opField_and_usedBits v i, hused, opField_and_usedBits]
  obtain ⟨j, hv, hbits⟩ := decode_ok_of_opField_eq hw hop
  have henc : encode j = encode i := by
    rw [encode_eq_and_usedBits hv, hbits, hused, encode_eq_and_usedBits hw]
  rwa [encode_injective henc] at hv

/-! ### The word of an assembler line -/

theorem toNat_append_eq_add {m n : Nat} (x : BitVec m) (y : BitVec n) :
    (x ++ y).toNat = x.toNat * 2 ^ n + y.toNat := by
  rw [BitVec.toNat_append, ← Nat.shiftLeft_add_eq_or_of_lt y.isLt, Nat.shiftLeft_eq]

theorem toNat_encode_cmd (x : Byte) : (encode (.cmd x)).toNat = x.toNat := by
  rw [encode, toNat_append_eq_add]
  exact Nat.zero_add _

theorem toNat_encode_dot (p : Byte) : (encode (.dot p)).toNat = 2 * 2 ^ 48 + p.toNat := by
  rw [encode, toNat_append_eq_add]
  rfl

theorem toNat_encode_bat (level : BatLevel) : (encode (.bat level)).toNat = 3 * 2 ^ 48 + level.code.toNat := by
  rw [encode, toNat_append_eq_add]
  rfl

theorem toNat_encode_ldg (g : SixBytes) :
    (encode (.ldg g)).toNat = 2 ^ 48 + (byteAt g 0).toNat + 2 ^ 8 * (byteAt g 1).toNat + 2 ^ 16 * (byteAt g 2).toNat +
      2 ^ 24 * (byteAt g 3).toNat + 2 ^ 32 * (byteAt g 4).toNat + 2 ^ 40 * (byteAt g 5).toNat := by
  simp only [encode, toNat_append_eq_add, BitVec.toNat_ofNat]
  omega

theorem assemble_cmd {p : Nat} (h : p < 256) : assemble (.cmd p) = some (.cmd (BitVec.ofNat 8 p)) := by
  simp [assemble, AsmLine.wellFormed, h]

theorem assemble_dot {p : Nat} (h : p < 256) : assemble (.dot p) = some (.dot (BitVec.ofNat 8 p)) := by
  simp [assemble, AsmLine.wellFormed, h]

theorem assemble_bat {level : Nat} (h : level < 4) :
    assemble (.bat level) = some (.bat (BatLevel.ofCode (BitVec.ofNat 2 level))) := by
  simp [assemble, AsmLine.wellFormed, h]

theorem assemble_ldg {g : List Nat} (hlen : g.length = 6) (hg : ∀ m ∈ g, m < 256) :
    assemble (.ldg g) = some (.ldg (Vector.ofFn fun i => BitVec.ofNat 8 (g.getD i 0))) := by
  simpa [assemble, AsmLine.wellFormed, hlen] using hg

/-- Settles O6: a line in range assembles to an instruction whose operands are its numbers, and the word of an
instruction is a sum. -/
theorem assembledWordsAreCodeAndOperands : Obligations.AssembledWordsAreCodeAndOperands := by
  unfold Obligations.AssembledWordsAreCodeAndOperands
  refine ⟨fun p hp => ?_, fun g0 g1 g2 g3 g4 g5 h0 h1 h2 h3 h4 h5 => ?_, fun p hp => ?_, fun level hl => ?_, rfl⟩
  · rw [assemble_cmd hp, Option.map_some, toNat_encode_cmd, BitVec.toNat_ofNat, Nat.mod_eq_of_lt hp]
  · rw [assemble_ldg rfl (by simp [h0, h1, h2, h3, h4, h5]), Option.map_some, toNat_encode_ldg]
    simp [byteAt, h0, h1, h2, h3, h4, h5, Nat.mod_eq_of_lt]
  · rw [assemble_dot hp, Option.map_some, toNat_encode_dot, BitVec.toNat_ofNat, Nat.mod_eq_of_lt hp]
  · rw [assemble_bat hl, Option.map_some, toNat_encode_bat, BatLevel.code_ofCode, BitVec.toNat_ofNat,
      Nat.mod_eq_of_lt hl]

end Sys2Proof

namespace Sys2Proof.Machine

/-! ### The bytes of the two frames -/

/-- A field of a concatenation that straddles the seam takes the low end of the left part and the high end of the right. -/
theorem extractLsb'_append_straddle {m n k l s : Nat} (x : BitVec m) (y : BitVec n) (h : s + l = n) :
    (x ++ y).extractLsb' s (k + l) = x.extractLsb' 0 k ++ y.extractLsb' s l := by
  apply BitVec.eq_of_getLsbD_eq
  intro j hj
  simp only [BitVec.getLsbD_extractLsb', BitVec.getLsbD_append]
  by_cases hjl : j < l
  · simp [hj, hjl, show s + j < n by omega]
  · have hsub : s + j - n = j - l := by omega
    simp [hj, hjl, hsub, show ¬ s + j < n by omega, show j - l < k by omega]

theorem encCmd_fields (c : Config) (x : Byte) :
    encCmd c x = [c.params.cmdTag ++ x.extractLsb' 4 4, x.extractLsb' 0 4 ++ c.params.cmdPad] := by
  rw [encCmd_eq, cmdContainer, BitVec.extractLsb'_append_eq_of_le (by decide),
    extractLsb'_append_straddle (k := 4) (l := 4) _ _ rfl, extractLsb'_append_straddle (k := 4) (l := 4) _ _ rfl,
    BitVec.extractLsb'_append_eq_of_add_le (by decide), BitVec.extractLsb'_eq_self, BitVec.extractLsb'_eq_self]

/-- Below each emitted byte the whole fields are peeled off; the byte then lies inside one word or across one seam. -/
theorem encData_fields (c : Config) (b : SixBytes) : encData c b =
    [c.params.dataTag ++ 0#5, 0#1 ++ (word0 c b).extractLsb' 9 7, (word0 c b).extractLsb' 1 8,
      (word0 c b).extractLsb' 0 1 ++ (word1 c b).extractLsb' 9 7, (word1 c b).extractLsb' 1 8,
      (word1 c b).extractLsb' 0 1 ++ (word2 c b).extractLsb' 9 7, (word2 c b).extractLsb' 1 8,
      (word2 c b).extractLsb' 0 1 ++ c.params.dataPad] := by
  rw [encData_eq, dataContainer]
  simp only [List.cons.injEq, and_true]
  refine ⟨?_, ?_, ?_, ?_, ?_, ?_, ?_, ?_⟩
  · iterate 4 rw [BitVec.extractLsb'_append_eq_of_le (by decide)]
    rw [extractLsb'_append_straddle (k := 3) (l := 5) _ _ rfl, BitVec.extractLsb'_eq_self]
    rfl
  · iterate 3 rw [BitVec.extractLsb'_append_eq_of_le (by decide)]
    rw [extractLsb'_append_straddle (k := 1) (l := 7) _ _ rfl, BitVec.extractLsb'_append_eq_of_add_le (by decide)]
    rfl
  · iterate 3 rw [BitVec.extractLsb'_append_eq_of_le (by decide)]
    rw [BitVec.extractLsb'_append_eq_of_add_le (by decide)]
  · iterate 2 rw [BitVec.extractLsb'_append_eq_of_le (by decide)]
    rw [extractLsb'_append_straddle (k := 1) (l := 7) _ _ rfl, BitVec.extractLsb'_append_eq_of_add_le (by decide)]
  · iterate 2 rw [BitVec.extractLsb'_append_eq_of_le (by decide)]
    rw [BitVec.extractLsb'_append_eq_of_add_le (by decide)]
  · rw [BitVec.extractLsb'_append_eq_of_le (by decide), extractLsb'_append_straddle (k := 1) (l := 7) _ _ rfl,
      BitVec.extractLsb'_append_eq_of_add_le (by decide)]
  · rw [BitVec.extractLsb'_append_eq_of_le (by decide), BitVec.extractLsb'_append_eq_of_add_le (by decide)]
  · rw [extractLsb'_append_straddle (k := 1) (l := 7) _ _ rfl, BitVec.extractLsb'_append_eq_of_add_le (by decide),
      BitVec.extractLsb'_eq_self]

/-- Settles O16: each emitted byte is a field of the container, taken apart at the seams between its pieces. -/
theorem emittedBytesFieldByField : Obligations.EmittedBytesFieldByField := ⟨encCmd_fields, encData_fields⟩

/-! ### The buffer bytes in the container -/

theorem pair_odd {c : Config} (h : c.params.pairHigh = .odd) (a b : Byte) : pair c a b = b ++ a := by
  simp [pair, h]

theorem pair_even {c : Config} (h : c.params.pairHigh = .even) (a b : Byte) : pair c a b = a ++ b := by
  simp [pair, h]

/-- Between pad and address stand the three words. -/
theorem dataContainer_words (c : Config) (b : SixBytes) :
    (dataContainer c b).extractLsb' 7 48 = word0 c b ++ word1 c b ++ word2 c b := by
  rw [dataContainer, BitVec.extractLsb'_append_eq_of_le (by decide),
    extractLsb'_append_straddle (k := 32) (l := 16) _ _ rfl, extractLsb'_append_straddle (k := 16) (l := 16) _ _ rfl,
    BitVec.extractLsb'_append_eq_of_add_le (by decide)]
  iterate 3 rw [BitVec.extractLsb'_eq_self]

theorem append_pairs (a b c d e f : Byte) : (a ++ b) ++ (c ++ d) ++ (e ++ f) = a ++ b ++ c ++ d ++ e ++ f := by
  rw [BitVec.append_assoc', BitVec.append_assoc' (x₁ := a ++ b)]
  rfl

/-- Settles O17: each word is its pair in the order of `PAIR_HIGH`, and the container holds the words in order. -/
theorem bufferByteOrderInTheContainer : Obligations.BufferByteOrderInTheContainer := by
  unfold Obligations.BufferByteOrderInTheContainer
  constructor
  · intro c b h
    refine ⟨pair_odd h _ _, pair_odd h _ _, pair_odd h _ _, ?_⟩
    rw [dataContainer_words, word0, word1, word2, pair_odd h, pair_odd h, pair_odd h, append_pairs]
  · intro c b h
    refine ⟨pair_even h _ _, pair_even h _ _, pair_even h _ _, ?_⟩
    rw [dataContainer_words, word0, word1, word2, pair_even h, pair_even h, pair_even h, append_pairs]

/-! ### A receiver -/

@[simp] theorem msbBits_length {n : Nat} (v : BitVec n) : (msbBits v).length = n := by simp [msbBits]

theorem take_msbBits_append {m n : Nat} (x : BitVec m) (y : BitVec n) {k : Nat} (h : k ≤ m) :
    (msbBits (x ++ y)).take k = (msbBits x).take k := by
  rw [msbBits_append, List.take_append_of_le_length (by simpa using h)]

/-- Settles O22: a receiver samples the container, which is as long as its type says and starts with the tag. -/
theorem receiverTellsFramesApart : Obligations.ReceiverTellsFramesApart := by
  unfold Obligations.ReceiverTellsFramesApart
  intro c tx cs d x b
  rw [sampled_encCmd, sampled_encData]
  refine ⟨msbBits_length _, msbBits_length _, fun htag => ?_, fun htag => ?_⟩
  · rw [cmdContainer, take_msbBits_append _ _ (by decide), take_msbBits_append _ _ (by decide), htag]
    decide
  · rw [dataContainer]
    iterate 5 rw [take_msbBits_append _ _ (by decide)]
    rw [htag]
    decide

end Sys2Proof.Machine

/-! The obligations of 40_framers.md: the bytes of the two frames and what they unpack to (R51, R52, R60, R61), the
events of a frame (R54 to R57), and `CMD` (R58). -/

namespace Sys2Proof.Machine

/-! ### Images -/

/-- A value is determined by its little-endian image: bit `i` stands in byte `i / 8` (R25 step 2). -/
theorem leImage_injective {k : Nat} {v w : BitVec (8 * k)} (h : leImage k v = leImage k w) : v = w := by
  apply BitVec.eq_of_getLsbD_eq
  intro i hi
  have hbyte : v.extractLsb' (8 * (i / 8)) 8 = w.extractLsb' (8 * (i / 8)) 8 :=
    List.map_inj_left.1 h (i / 8) (List.mem_range.2 (by omega))
  have hbit := congrArg (BitVec.getLsbD · (i % 8)) hbyte
  have hmod : i % 8 < 8 := Nat.mod_lt i (by decide)
  simpa [hmod, Nat.div_add_mod] using hbit

theorem reverseBytes_injective {s t : List Byte} (h : reverseBytes s = reverseBytes t) : s = t :=
  List.reverse_injective h

/-! ### The fields of the command container (R44) -/

theorem cmdContainer_tag (c : Config) (x : Byte) : (cmdContainer c x).extractLsb' 12 4 = c.params.cmdTag := by
  rw [cmdContainer, BitVec.extractLsb'_append_eq_of_le (by decide), BitVec.extractLsb'_append_eq_left]

theorem cmdContainer_opcode (c : Config) (x : Byte) : (cmdContainer c x).extractLsb' 4 8 = x := by
  rw [cmdContainer, BitVec.extractLsb'_append_eq_of_le (by decide), BitVec.extractLsb'_append_eq_right]

theorem cmdContainer_pad (c : Config) (x : Byte) : (cmdContainer c x).extractLsb' 0 4 = c.params.cmdPad :=
  BitVec.extractLsb'_append_eq_right

theorem encCmd_injective {c d : Config} {x y : Byte} (h : encCmd c x = encCmd d y) : x = y := by
  have hcontainer : cmdContainer c x = cmdContainer d y := leImage_injective (k := 2) (reverseBytes_injective h)
  rw [← cmdContainer_opcode c x, hcontainer, cmdContainer_opcode]

/-- Settles O14: the two reversed bytes, put together, are the container. -/
theorem commandFrameRoundTrip : Obligations.CommandFrameRoundTrip := by
  unfold Obligations.CommandFrameRoundTrip
  refine ⟨fun c x => ⟨(cmdContainer c x).extractLsb' 0 8, (cmdContainer c x).extractLsb' 8 8, rfl, ?_⟩,
    fun c d x y => encCmd_injective⟩
  have hcontainer : (cmdContainer c x).extractLsb' 8 8 ++ (cmdContainer c x).extractLsb' 0 8 = cmdContainer c x :=
    BitVec.extractLsb'_append_extractLsb'
  rw [hcontainer]
  exact ⟨cmdContainer_tag c x, cmdContainer_opcode c x, cmdContainer_pad c x⟩

/-! ### The command frame by shift and mask -/

theorem append_eq_shiftLeft_or {m n : Nat} (x : BitVec m) (y : BitVec n) :
    x ++ y = x.setWidth (m + n) <<< n ||| y.setWidth (m + n) := by
  rw [← BitVec.setWidth_append_eq_shiftLeft_setWidth_or, BitVec.setWidth_eq]

theorem setWidth_highNibble (x : Byte) : (x.extractLsb' 4 4).setWidth 8 = x >>> 4 := by revert x; decide

theorem setWidth_lowNibble (x : Byte) : (x.extractLsb' 0 4).setWidth 8 = x &&& 0x0F#8 := by revert x; decide

theorem encCmd_shiftMask (c : Config) (x : Byte) : encCmd c x =
    [(c.params.cmdTag.setWidth 8 <<< 4) ||| (x >>> 4), ((x &&& 0x0F#8) <<< 4) ||| c.params.cmdPad.setWidth 8] := by
  rw [encCmd_fields, append_eq_shiftLeft_or, append_eq_shiftLeft_or, ← setWidth_highNibble, ← setWidth_lowNibble]

/-- Settles O12: the nibbles of the opcode shifted and masked into the two bytes; the corner cases by their nibbles. -/
theorem commandFrameBytes : Obligations.CommandFrameBytes := by
  unfold Obligations.CommandFrameBytes
  refine ⟨encCmd_shiftMask, fun c x => rfl, fun c x y => encCmd_injective, fun c => ?_, fun c => ?_⟩
  · exact encCmd_fields c 0x00#8
  · exact encCmd_fields c 0xFF#8

/-! ### The fields of the data container (R45) -/

section dataContainer
variable (c : Config) (b : SixBytes)

theorem dataContainer_tag : (dataContainer c b).extractLsb' 61 3 = c.params.dataTag := by
  rw [dataContainer]
  iterate 4 rw [BitVec.extractLsb'_append_eq_of_le (by decide)]
  exact BitVec.extractLsb'_append_eq_left

theorem dataContainer_addr : (dataContainer c b).extractLsb' 55 6 = ADDR := by
  rw [dataContainer]
  iterate 4 rw [BitVec.extractLsb'_append_eq_of_le (by decide)]
  exact BitVec.extractLsb'_append_eq_right

theorem dataContainer_word0 : (dataContainer c b).extractLsb' 39 16 = word0 c b := by
  rw [dataContainer]
  iterate 3 rw [BitVec.extractLsb'_append_eq_of_le (by decide)]
  exact BitVec.extractLsb'_append_eq_right

theorem dataContainer_word1 : (dataContainer c b).extractLsb' 23 16 = word1 c b := by
  rw [dataContainer]
  iterate 2 rw [BitVec.extractLsb'_append_eq_of_le (by decide)]
  exact BitVec.extractLsb'_append_eq_right

theorem dataContainer_word2 : (dataContainer c b).extractLsb' 7 16 = word2 c b := by
  rw [dataContainer, BitVec.extractLsb'_append_eq_of_le (by decide)]
  exact BitVec.extractLsb'_append_eq_right

theorem dataContainer_pad : (dataContainer c b).extractLsb' 0 7 = c.params.dataPad :=
  BitVec.extractLsb'_append_eq_right

end dataContainer

/-- The bytes of a 64-bit value, most significant first, put together are the value. -/
theorem append_bytes (v : BitVec 64) :
    v.extractLsb' 56 8 ++ v.extractLsb' 48 8 ++ v.extractLsb' 40 8 ++ v.extractLsb' 32 8 ++ v.extractLsb' 24 8 ++
      v.extractLsb' 16 8 ++ v.extractLsb' 8 8 ++ v.extractLsb' 0 8 = v := by
  iterate 7 rw [BitVec.extractLsb'_append_extractLsb'_eq_extractLsb' (by rfl)]
  exact BitVec.extractLsb'_eq_self

/-! ### The data frame determines the buffer, given `PAIR_HIGH` -/

theorem append_injective {m n : Nat} {x x' : BitVec m} {y y' : BitVec n} (h : x ++ y = x' ++ y') : x = x' ∧ y = y' :=
  ⟨by rw [← BitVec.extractLsb'_append_eq_left (a := x) (b := y), h, BitVec.extractLsb'_append_eq_left],
    by rw [← BitVec.extractLsb'_append_eq_right (a := x) (b := y), h, BitVec.extractLsb'_append_eq_right]⟩

theorem pair_injective {c d : Config} (hpair : c.params.pairHigh = d.params.pairHigh) {a b a' b' : Byte}
    (h : pair c a b = pair d a' b') : a = a' ∧ b = b' := by
  cases hc : c.params.pairHigh with
  | even =>
    rw [pair_even hc, pair_even (hpair ▸ hc)] at h
    exact append_injective h
  | odd =>
    rw [pair_odd hc, pair_odd (hpair ▸ hc)] at h
    exact (append_injective h).symm

theorem dataContainer_injective {c d : Config} (hpair : c.params.pairHigh = d.params.pairHigh) {a b : SixBytes}
    (h : dataContainer c a = dataContainer d b) : a = b := by
  have h0 : word0 c a = word0 d b := by rw [← dataContainer_word0, h, dataContainer_word0]
  have h1 : word1 c a = word1 d b := by rw [← dataContainer_word1, h, dataContainer_word1]
  have h2 : word2 c a = word2 d b := by rw [← dataContainer_word2, h, dataContainer_word2]
  obtain ⟨b4, b5⟩ := pair_injective hpair h0
  obtain ⟨b2, b3⟩ := pair_injective hpair h1
  obtain ⟨b0, b1⟩ := pair_injective hpair h2
  apply buf_ext
  intro i
  fin_cases i
  · exact b0
  · exact b1
  · exact b2
  · exact b3
  · exact b4
  · exact b5

theorem encData_injective {c d : Config} (hpair : c.params.pairHigh = d.params.pairHigh) {a b : SixBytes}
    (h : encData c a = encData d b) : a = b :=
  dataContainer_injective hpair (leImage_injective (k := 8) (reverseBytes_injective h))

/-- Settles O15: the eight reversed bytes, put together, are the container. -/
theorem dataFrameRoundTrip : Obligations.DataFrameRoundTrip := by
  unfold Obligations.DataFrameRoundTrip
  refine ⟨fun c b => ⟨_, _, _, _, _, _, _, _, rfl, dataContainer c b, (append_bytes _).symm, ?_⟩,
    fun c d a b hpair => encData_injective hpair⟩
  exact ⟨dataContainer_tag c b, dataContainer_addr c b, dataContainer_word0 c b, dataContainer_word1 c b,
    dataContainer_word2 c b, dataContainer_pad c b⟩

/-! ### The data frame by 64-bit shifts -/

theorem dataContainer_shiftOr (c : Config) (b : SixBytes) : dataContainer c b =
    ((c.params.dataTag.setWidth 64) <<< 61) ||| ((ADDR.setWidth 64) <<< 55) ||| (((word0 c b).setWidth 64) <<< 39) |||
      (((word1 c b).setWidth 64) <<< 23) ||| (((word2 c b).setWidth 64) <<< 7) ||| (c.params.dataPad.setWidth 64) := by
  rw [← BitVec.setWidth_eq (dataContainer c b), dataContainer]
  simp only [BitVec.setWidth_append_eq_shiftLeft_setWidth_or, BitVec.shiftLeft_or_distrib, ← BitVec.shiftLeft_add]

/-- Byte `j` on the wire is byte `7 - j` of the container. -/
theorem encData_eq_map (c : Config) (b : SixBytes) :
    encData c b = (List.range 8).map fun j => ((dataContainer c b) >>> (56 - 8 * j)).setWidth 8 := by
  simp only [BitVec.setWidth_ushiftRight_eq_extractLsb]
  rfl

theorem pair_self (c : Config) (a : Byte) : pair c a a = a ++ a := by
  cases hc : c.params.pairHigh with
  | even => exact pair_even hc a a
  | odd => exact pair_odd hc a a

/-- A buffer of six equal bytes has three equal words, whatever `PAIR_HIGH`. -/
theorem words_of_equal_bytes (c : Config) (a : Byte) :
    word0 c #v[a, a, a, a, a, a] = a ++ a ∧ word1 c #v[a, a, a, a, a, a] = a ++ a ∧
      word2 c #v[a, a, a, a, a, a] = a ++ a :=
  ⟨pair_self c a, pair_self c a, pair_self c a⟩

/-- Settles O13: the container is an OR of shifted fields, of which a shift takes each byte; the corner cases by their
words. -/
theorem dataFrameBytes : Obligations.DataFrameBytes := by
  unfold Obligations.DataFrameBytes
  refine ⟨fun c b => ?_, fun c a b => encData_injective rfl, fun c b => rfl, fun c => ?_, fun c => ?_⟩
  · rw [← dataContainer_shiftOr, encData_eq_map]
  · obtain ⟨h0, h1, h2⟩ := words_of_equal_bytes c 0#8
    rw [encData_fields, h0, h1, h2]
    rfl
  · obtain ⟨h0, h1, h2⟩ := words_of_equal_bytes c 0xFF#8
    rw [encData_fields, h0, h1, h2]
    rfl

/-! ### The events of a frame -/

/-- A chip-select line adds the two edges and nothing else (R57). -/
theorem frameEvents_true (tx : TxMode) (e : List Byte) :
    frameEvents tx true e = .cs false :: bodyEvents tx e ++ [.cs true] := rfl

@[simp] theorem bitbangEvents_length (e : List Byte) : (bitbangEvents e).length = 24 * e.length := by
  have hthree (x : Bit) : (bitEvents x).length = 3 := rfl
  simp only [bitbangEvents, List.length_flatMap, hthree, List.map_const', List.sum_replicate_nat, bitsOfBytes_length]
  omega

theorem frameEvents_bitbang_length (e : List Byte) : (frameEvents .bitbang true e).length = 24 * e.length + 2 := by
  rw [frameEvents_true, bodyEvents]
  simp

/-- Settles O19: three events a bit between the two edges, and what a receiver samples. -/
theorem frameEventCounts : Obligations.FrameEventCounts := by
  unfold Obligations.FrameEventCounts
  refine ⟨frameEvents_bitbang_length, fun e => rfl, fun tx e => ?_, fun c x => ?_, fun c b => ?_,
    fun c cs d x => sampled_encCmd c .bitbang cs d x, fun c cs d b => sampled_encData c .bitbang cs d b⟩
  · rw [frameEvents_true, frameEvents_false]
  · rw [frameEvents_bitbang_length, encCmd_length]
  · rw [frameEvents_bitbang_length, encData_length]

theorem cs_notMem_bodyEvents (tx : TxMode) (e : List Byte) (l : Bit) : Event.cs l ∉ bodyEvents tx e := by
  cases tx with
  | bulk => simp [bodyEvents, bulkEvents]
  | bitbang => simp [bodyEvents, bitbangEvents, bitEvents]

/-- The bit-banged loop of R56, over the bytes and then over the bits from 7 down to 0. -/
theorem bitbangEvents_eq_loop (e : List Byte) : bitbangEvents e = e.flatMap fun b =>
    [7, 6, 5, 4, 3, 2, 1, 0].flatMap fun i => [.clk false, .data (b.getLsbD i), .clk true] := by
  rw [bitbangEvents, bitsOfBytes, List.flatMap_assoc]
  rfl

/-- Settles O20: the body is `bodyEvents`, which drives no chip-select. -/
theorem chipSelectBracketsEachFrame : Obligations.ChipSelectBracketsEachFrame := by
  unfold Obligations.ChipSelectBracketsEachFrame
  intro tx e
  refine ⟨bodyEvents tx e, frameEvents_true tx e, frameEvents_false tx e, cs_notMem_bodyEvents tx e, ?_, ?_⟩
  · rintro rfl
    rfl
  · rintro rfl
    exact bitbangEvents_eq_loop e

/-! ### `CMD` -/

/-- `CMD` is one transmission and writes no buffer (R58). -/
theorem exec_cmd (x : Byte) (s : State) : exec (.cmd x) s = .next (transmit s (encCmd s.cfg x)) := exec_eq (.cmd x) s

/-- Settles O23: the frame transmitted depends on the configuration and the straps alone, which a transmission keeps. -/
theorem cmdEmitsOneCommandFrame : Obligations.CmdEmitsOneCommandFrame := by
  unfold Obligations.CmdEmitsOneCommandFrame
  intro x s
  exact ⟨_, exec_cmd x s, rfl, _, exec_cmd x _, rfl⟩

end Sys2Proof.Machine

/-! The obligations of 41_buffer_mux.md: the four buffer operations (R72 to R75), the flush that ends each (R70), the
laws of the buffer (R63, R76), and the safety of every reachable state, which rests on the overlay rules (R76 b, c). -/

namespace Sys2Proof.Machine

/-! ### The overlay and glyph fields each operation leaves -/

section fields
variable {c : Config} {g buf : SixBytes} {p : Byte} {level : BatLevel} {j : Pos}

@[simp] theorem seg_ldgBuf : seg (byteAt (ldgBuf c g buf) j) = seg (byteAt g j) := by
  rw [ldgBuf_get]
  split <;> simp

theorem ov_ldgBuf_of_mem_dotIdx (hj : j ∈ dotIdx c) : ov (byteAt (ldgBuf c g buf) j) = false := by
  rw [ldgBuf_get, if_pos hj]
  simp

theorem ov_ldgBuf_of_mem_batIdx (hj : j ∈ batIdx c) : ov (byteAt (ldgBuf c g buf) j) = ov (byteAt buf j) := by
  rw [ldgBuf_get, if_neg fun hdot => dotIdx_disjoint_batIdx c hdot hj]
  simp

/-- A write of overlay bits keeps the glyph of the byte. -/
theorem seg_overlay_write (b : Byte) (lit : Prop) [Decidable lit] :
    seg ((b &&& SEG) ||| (if lit then OV else 0#8)) = seg b := by
  split <;> simp

theorem ov_overlay_write (b : Byte) (lit : Prop) [Decidable lit] :
    ov ((b &&& SEG) ||| (if lit then OV else 0#8)) = decide lit := by
  split <;> simp [*]

@[simp] theorem seg_dotBuf : seg (byteAt (dotBuf c p buf) j) = seg (byteAt buf j) := by
  rw [dotBuf_get]
  split
  · exact seg_overlay_write _ _
  · rfl

theorem ov_dotBuf_of_mem_dotIdx (hj : j ∈ dotIdx c) :
    ov (byteAt (dotBuf c p buf) j) = decide (dotIndex c p = some j) := by
  rw [dotBuf_get, if_pos hj, ov_overlay_write]

theorem dotBuf_get_of_mem_batIdx (hj : j ∈ batIdx c) : byteAt (dotBuf c p buf) j = byteAt buf j := by
  rw [dotBuf_get, if_neg fun hdot => dotIdx_disjoint_batIdx c hdot hj]

@[simp] theorem seg_batBuf : seg (byteAt (batBuf c level buf) j) = seg (byteAt buf j) := by
  rw [batBuf_get]
  split
  · exact seg_overlay_write _ _
  · rfl

theorem ov_batBuf_of_mem_batIdx (hj : j ∈ batIdx c) :
    ov (byteAt (batBuf c level buf) j) = decide (j ∈ batterySet c level) := by
  rw [batBuf_get, if_pos hj, ov_overlay_write]

theorem batBuf_get_of_mem_dotIdx (hj : j ∈ dotIdx c) : byteAt (batBuf c level buf) j = byteAt buf j := by
  rw [batBuf_get, if_neg fun hbat => dotIdx_disjoint_batIdx c hj hbat]

end fields

/-! ### The three clearing steps -/

theorem not_SEG : ~~~SEG = OV := by decide

theorem clrLetters_get_and (c : Config) (buf : SixBytes) (j : Pos) :
    byteAt (clrLetters c buf) j = byteAt buf j &&& (if j ∈ dotIdx c then 0#8 else OV) := by
  rw [clrLetters_get]
  split <;> simp

theorem clrDots_get_and (c : Config) (buf : SixBytes) (j : Pos) :
    byteAt (clrDots c buf) j = byteAt buf j &&& (if j ∈ dotIdx c then SEG else BitVec.allOnes 8) := by
  rw [clrDots_get]
  split
  · rfl
  · exact BitVec.and_allOnes.symm

theorem clrBattery_get_and (c : Config) (buf : SixBytes) (j : Pos) :
    byteAt (clrBattery c buf) j = byteAt buf j &&& (if j ∈ batIdx c then SEG else BitVec.allOnes 8) := by
  rw [clrBattery_get]
  split
  · rfl
  · exact BitVec.and_allOnes.symm

/-- Steps that only mask each byte commute. -/
theorem masking_steps_commute {f g : SixBytes → SixBytes} {kf kg : Pos → Byte}
    (hf : ∀ buf j, byteAt (f buf) j = byteAt buf j &&& kf j) (hg : ∀ buf j, byteAt (g buf) j = byteAt buf j &&& kg j)
    (buf : SixBytes) : f (g buf) = g (f buf) :=
  buf_ext fun j => by rw [hf, hg, hg, hf, BitVec.and_assoc, BitVec.and_assoc, BitVec.and_comm (kg j)]

section clearing
variable (c : Config) (buf : SixBytes)

theorem clrDots_clrBattery : clrDots c (clrBattery c buf) = clrBattery c (clrDots c buf) :=
  masking_steps_commute (clrDots_get_and c) (clrBattery_get_and c) buf

theorem clrLetters_clrDots : clrLetters c (clrDots c buf) = clrDots c (clrLetters c buf) :=
  masking_steps_commute (clrLetters_get_and c) (clrDots_get_and c) buf

theorem clrLetters_clrBattery : clrLetters c (clrBattery c buf) = clrBattery c (clrLetters c buf) :=
  masking_steps_commute (clrLetters_get_and c) (clrBattery_get_and c) buf

/-- A dot byte is cleared whole by `clr_letters`; of a battery byte that step leaves the bar, which is already out. -/
@[simp] theorem clrBuf_get (j : Pos) : byteAt (clrBuf c buf) j = 0#8 := by
  rw [clrBuf, clrLetters_get]
  split
  case isTrue => rfl
  case isFalse hdot =>
    have hbat : j ∈ batIdx c := (List.mem_append.1 (mem_dotIdx_append_batIdx c j)).resolve_left hdot
    rw [clrDots_get, if_neg hdot, clrBattery_get, if_pos hbat]
    exact byte_ext (by simp) (by simp)

theorem zeroBuf_get (j : Pos) : byteAt #v[0#8, 0#8, 0#8, 0#8, 0#8, 0#8] j = 0#8 := by revert j; decide

theorem clrBuf_eq_zeroBuf : clrBuf c buf = #v[0#8, 0#8, 0#8, 0#8, 0#8, 0#8] :=
  buf_ext fun j => by rw [clrBuf_get, zeroBuf_get]

end clearing

/-! ### The overlay rules (R76 b, c) -/

/-- The lit bars of a level, `B1` first (R74). -/
def barsOfLevel : BatLevel → List Bit
  | .none => [false, false, false]
  | .low => [true, false, false]
  | .medium => [true, true, false]
  | .full => [true, true, true]

section overlay
variable {c : Config} {a b : SixBytes}

theorem dotBits_congr (h : ∀ i ∈ dotIdx c, ov (byteAt a i) = ov (byteAt b i)) : dotBits c a = dotBits c b :=
  List.map_congr_left h

theorem batteryBits_congr (h : ∀ i ∈ batIdx c, ov (byteAt a i) = ov (byteAt b i)) : batteryBits c a = batteryBits c b :=
  List.map_congr_left h

theorem dotBits_of_dark (h : ∀ i ∈ dotIdx c, ov (byteAt a i) = false) : dotBits c a = [false, false, false] :=
  List.map_congr_left h

theorem batteryBits_of_dark (h : ∀ i ∈ batIdx c, ov (byteAt a i) = false) : batteryBits c a = [false, false, false] :=
  List.map_congr_left h

/-- Among three different indices at most one is the index of the point. -/
theorem count_dotBits_dotBuf (c : Config) (p : Byte) (buf : SixBytes) :
    (dotBits c (dotBuf c p buf)).count true ≤ 1 := by
  have hbits : dotBits c (dotBuf c p buf) = (dotIdx c).map fun i => decide (dotIndex c p = some i) :=
    List.map_congr_left fun i hi => ov_dotBuf_of_mem_dotIdx hi
  rw [hbits]
  cases dotIndex c p with
  | none => simp [List.count_replicate]
  | some k =>
    have hcount : ((dotIdx c).map fun i => decide (some k = some i)).count true = (dotIdx c).count k := by
      simp [List.count, List.countP_map, Function.comp_def, beq_eq_decide, eq_comm]
    rw [hcount]
    exact List.nodup_iff_count_le_one.1 (dotIdx_nodup c) k

/-- The three bar indices differ, so a bar is lit exactly when its own test of the level puts it in the set. -/
theorem batteryBits_batBuf (c : Config) (level : BatLevel) (buf : SixBytes) :
    batteryBits c (batBuf c level buf) = barsOfLevel level := by
  have hbits : batteryBits c (batBuf c level buf) = (batIdx c).map fun i => decide (i ∈ batterySet c level) :=
    List.map_congr_left fun i hi => ov_batBuf_of_mem_batIdx hi
  obtain ⟨-, -, ⟨h12, h13, h23⟩, -⟩ := c.index_facts
  rw [hbits]
  cases level <;>
    simp [batIdx, batterySet, BatLevel.code, barsOfLevel, bar1, bar2, bar3, h12, h13, h23, h12.symm, h13.symm, h23.symm]

theorem barsOfLevel_mem (level : BatLevel) : barsOfLevel level ∈
    [[false, false, false], [true, false, false], [true, true, false], [true, true, true]] := by
  cases level <;> decide

/-- The overlay rules read the configuration and the buffer only, and every operation's buffer keeps them. -/
theorem overlayOk_of_bufOf {s t : State} {i : Instr} (h : OverlayOk s) (hcfg : t.cfg = s.cfg)
    (hbuf : t.buf = bufOf s.cfg s.buf i) : OverlayOk t := by
  obtain ⟨hdots, hbars⟩ := h
  rw [OverlayOk, hcfg, hbuf]
  cases i with
  | cmd x => exact ⟨hdots, hbars⟩
  | ldg g =>
    rw [bufOf, dotBits_of_dark fun i hi => ov_ldgBuf_of_mem_dotIdx hi,
      batteryBits_congr fun i hi => ov_ldgBuf_of_mem_batIdx hi]
    exact ⟨by decide, hbars⟩
  | dot p =>
    rw [bufOf, batteryBits_congr fun i hi => congrArg ov (dotBuf_get_of_mem_batIdx hi)]
    exact ⟨count_dotBits_dotBuf s.cfg p s.buf, hbars⟩
  | bat level =>
    rw [bufOf, dotBits_congr fun i hi => congrArg ov (batBuf_get_of_mem_dotIdx hi), batteryBits_batBuf]
    exact ⟨hdots, barsOfLevel_mem level⟩
  | clr =>
    rw [bufOf, dotBits_of_dark fun i _ => by rw [clrBuf_get, ov_zero],
      batteryBits_of_dark fun i _ => by rw [clrBuf_get, ov_zero]]
    exact ⟨by decide, by decide⟩

end overlay

/-- Settles O34: an idle step changes nothing, and any other one leaves the buffer of one operation. -/
theorem stepKeepsTheOverlayRules : Obligations.StepKeepsTheOverlayRules := by
  unfold Obligations.StepKeepsTheOverlayRules
  intro s t hs h
  obtain rfl | ⟨rest, i, rfl⟩ := step_next_transmit h
  · exact hs
  · exact overlayOk_of_bufOf hs rfl rfl

/-! ### Masks (R63) -/

/-- The bits of byte `j` an operation clears. -/
def clrMask (c : Config) (j : Pos) : Instr → Byte
  | .cmd _ => 0#8
  | .ldg _ => if j ∈ dotIdx c then 0xFF#8 else SEG
  | .dot _ => if j ∈ dotIdx c then OV else 0#8
  | .bat _ => if j ∈ batIdx c then OV else 0#8
  | .clr => 0xFF#8

/-- The bits of byte `j` an operation then sets. -/
def setMask (c : Config) (j : Pos) : Instr → Byte
  | .cmd _ => 0#8
  | .ldg g => glyphMask (byteAt g j)
  | .dot p => if dotIndex c p = some j then OV else 0#8
  | .bat level => if j ∈ batterySet c level then OV else 0#8
  | .clr => 0#8

theorem bufOf_get (c : Config) (buf : SixBytes) (i : Instr) (j : Pos) :
    byteAt (bufOf c buf i) j = (byteAt buf j &&& ~~~clrMask c j i) ||| setMask c j i := by
  cases i with
  | cmd x => rw [bufOf, clrMask, setMask, and_not_zero, BitVec.or_zero]
  | ldg g =>
    rw [bufOf, ldgBuf_get, clrMask, setMask]
    split <;> simp [not_SEG]
  | dot p =>
    rw [bufOf, dotBuf_get, clrMask, setMask]
    split
    case isTrue => rw [not_OV]
    case isFalse hj =>
      have hunlit : dotIndex c p ≠ some j := fun h => hj (dotIndex_mem h)
      rw [if_neg hunlit, and_not_zero, BitVec.or_zero]
  | bat level =>
    rw [bufOf, batBuf_get, clrMask, setMask]
    split
    case isTrue => rw [not_OV]
    case isFalse hj =>
      have hunlit : j ∉ batterySet c level := fun h => hj ((batterySet_sublist c level).subset h)
      rw [if_neg hunlit, and_not_zero, BitVec.or_zero]
  | clr => simp [bufOf, clrMask, setMask]

/-- Clearing a bit that is set afterwards is the same as leaving it, so the clear mask can be freed of the set mask. -/
theorem masked_eq_disjointly_masked (b clr set : Byte) :
    (b &&& ~~~clr) ||| set = (b &&& ~~~(clr &&& ~~~set)) ||| set := by
  ext k hk
  simp only [BitVec.getElem_or, BitVec.getElem_and, BitVec.getElem_not]
  cases b[k] <;> cases clr[k] <;> cases set[k] <;> rfl

theorem clr_andNot_and_self (clr set : Byte) : (clr &&& ~~~set) &&& set = 0#8 := by
  rw [BitVec.and_assoc, BitVec.and_comm (~~~set), BitVec.and_not_self]
  exact BitVec.and_zero

theorem masked_twice (b clr set : Byte) :
    (((b &&& ~~~clr) ||| set) &&& ~~~clr) ||| set = (b &&& ~~~clr) ||| set := by
  ext k hk
  simp only [BitVec.getElem_or, BitVec.getElem_and, BitVec.getElem_not]
  cases b[k] <;> cases clr[k] <;> cases set[k] <;> rfl

/-- The same operation again leaves the same buffer. -/
theorem bufOf_bufOf (c : Config) (buf : SixBytes) (i : Instr) : bufOf c (bufOf c buf i) i = bufOf c buf i :=
  buf_ext fun j => by rw [bufOf_get, bufOf_get, masked_twice]

/-- Settles O30: the masks of the operation, the clear mask freed of the bits that are set. -/
theorem bufferWritesAreMasks : Obligations.BufferWritesAreMasks := by
  unfold Obligations.BufferWritesAreMasks
  intro i c
  refine ⟨fun j => clrMask c j i &&& ~~~setMask c j i, fun j => setMask c j i,
    fun j => clr_andNot_and_self _ _, fun s t hcfg h j => ?_⟩
  rw [exec_next_buf h, hcfg, bufOf_get, masked_eq_disjointly_masked]

/-! ### The four operations -/

/-- A glyph loaded under an overlay bit that is kept. -/
theorem and_OV_or_glyphMask (b g : Byte) : (b &&& OV) ||| glyphMask g = b.extractLsb' 7 1 ++ g.extractLsb' 0 7 := by
  apply byte_ext
  · rw [ov_or, ov_and_OV, ov_glyphMask, Bool.or_false, ov, ov, BitVec.getLsbD_append]
    simp
  · simp only [seg_or, seg_and_OV, seg_glyphMask, BitVec.zero_or]
    exact BitVec.extractLsb'_append_eq_right.symm

theorem ldgBuf_get_of_mem_dotIdx {c : Config} {g buf : SixBytes} {j : Pos} (hj : j ∈ dotIdx c) :
    byteAt (ldgBuf c g buf) j = 0#1 ++ (byteAt g j).extractLsb' 0 7 := by
  rw [ldgBuf_get, if_pos hj]
  exact and_OV_or_glyphMask 0#8 (byteAt g j)

theorem ldgBuf_get_of_mem_batIdx {c : Config} {g buf : SixBytes} {j : Pos} (hj : j ∈ batIdx c) :
    byteAt (ldgBuf c g buf) j = (byteAt buf j).extractLsb' 7 1 ++ (byteAt g j).extractLsb' 0 7 := by
  rw [ldgBuf_get, if_neg fun hdot => dotIdx_disjoint_batIdx c hdot hj, and_OV_or_glyphMask]

theorem ov_dotBuf_iff {c : Config} {p : Byte} {buf : SixBytes} {j : Pos} (hj : j ∈ dotIdx c) :
    ov (byteAt (dotBuf c p buf) j) = true ↔
      1 ≤ p.toNat ∧ p.toNat ≤ 3 ∧ j.val = c.params.dotBase - p.toNat := by
  rw [ov_dotBuf_of_mem_dotIdx hj, decide_eq_true_iff, dotIndex_eq_some]

/-- Settles O24: the state is `LDG`'s buffer written and flushed, and its bytes are those of R72. -/
theorem ldgLoadsGlyphsKeepsBattery : Obligations.LdgLoadsGlyphsKeepsBattery := by
  unfold Obligations.LdgLoadsGlyphsKeepsBattery
  intro g s
  have htwice : ldgBuf s.cfg g (ldgBuf s.cfg g s.buf) = ldgBuf s.cfg g s.buf := bufOf_bufOf s.cfg s.buf (.ldg g)
  refine ⟨writeThenFlush s (ldgBuf s.cfg g s.buf), rfl, fun i hi => ldgBuf_get_of_mem_dotIdx hi,
    fun i hi => ldgBuf_get_of_mem_batIdx hi, rfl, _, rfl, htwice, ?_⟩
  rw [writeThenFlush_trace, writeThenFlush_cfg, writeThenFlush_buf, htwice]
  rfl

/-- Settles O25: the state is `DOT`'s buffer written and flushed, and the only dot bit set is that of R73. -/
theorem dotSetsOnlyThePointAsked : Obligations.DotSetsOnlyThePointAsked := by
  unfold Obligations.DotSetsOnlyThePointAsked
  intro p s
  exact ⟨writeThenFlush s (dotBuf s.cfg p s.buf), rfl, fun i hi => ov_dotBuf_iff hi,
    fun _ => seg_dotBuf, fun i hi => dotBuf_get_of_mem_batIdx hi,
    count_dotBits_dotBuf s.cfg p s.buf, rfl, _, rfl, bufOf_bufOf s.cfg s.buf (.dot p)⟩

/-- Settles O26: the state is `BAT`'s buffer written and flushed, and its bars are those of R74. -/
theorem batLightsTheBarsOfItsLevel : Obligations.BatLightsTheBarsOfItsLevel := by
  unfold Obligations.BatLightsTheBarsOfItsLevel
  intro level s
  exact ⟨writeThenFlush s (batBuf s.cfg level s.buf), rfl, batteryBits_batBuf s.cfg level s.buf,
    fun _ => seg_batBuf, fun i hi => batBuf_get_of_mem_dotIdx hi, rfl, _, rfl,
    bufOf_bufOf s.cfg s.buf (.bat level)⟩

/-- Settles O27: `CLR` leaves the zero buffer, and its three steps commute. -/
theorem clrBlanksEveryByte : Obligations.ClrBlanksEveryByte := by
  unfold Obligations.ClrBlanksEveryByte
  refine ⟨fun s => ⟨writeThenFlush s (clrBuf s.cfg s.buf), rfl, fun i => clrBuf_get s.cfg s.buf i, ?_⟩, fun c b => ?_⟩
  · rw [← clrBuf_eq_zeroBuf s.cfg s.buf]
    rfl
  · simp only [clrBuf, clrDots_clrBattery, clrLetters_clrDots, clrLetters_clrBattery, and_self]

/-- Settles O29: the frame of every operation but `CMD` is `enc_data` of the buffer it leaves. -/
theorem everyBufferOperationEndsInOneFlush : Obligations.EveryBufferOperationEndsInOneFlush := by
  unfold Obligations.EveryBufferOperationEndsInOneFlush
  intro i s t h hcmd
  obtain ⟨hcfg, htx, hcs, -, -, htrace⟩ := exec_next h
  rw [htrace, hcfg, htx, hcs]
  cases i with
  | cmd x => exact absurd rfl (hcmd x)
  | ldg g => rfl
  | dot p => rfl
  | bat level => rfl
  | clr => rfl

/-! ### Pairs of operations (R76 d, e) -/

theorem dotBuf_batBuf (c : Config) (p : Byte) (level : BatLevel) (buf : SixBytes) :
    dotBuf c p (batBuf c level buf) = batBuf c level (dotBuf c p buf) := by
  apply buf_ext
  intro j
  rw [dotBuf_get, batBuf_get, batBuf_get, dotBuf_get]
  by_cases hdot : j ∈ dotIdx c
  · have hbat : j ∉ batIdx c := fun hbat => dotIdx_disjoint_batIdx c hdot hbat
    simp only [if_pos hdot, if_neg hbat]
  · simp only [if_neg hdot]

/-- Two operations in a row leave the buffer of the second over that of the first. -/
theorem exec_exec_buf {i k : Instr} {s t u : State} (h : exec i s = .next t) (h' : exec k t = .next u) :
    u.buf = bufOf s.cfg (bufOf s.cfg s.buf i) k := by
  obtain ⟨hcfg, -, -, -, hbuf, -⟩ := exec_next h
  rw [exec_next_buf h', hcfg, hbuf]

/-- Settles O31: `DOT` and `BAT` write different bytes. -/
theorem dotAndBatCommuteOnTheBuffer : Obligations.DotAndBatCommuteOnTheBuffer := by
  unfold Obligations.DotAndBatCommuteOnTheBuffer
  intro p level s t u t' u' hdot hbat hbat' hdot'
  rw [exec_exec_buf hdot hbat, exec_exec_buf hbat' hdot']
  exact (dotBuf_batBuf s.cfg p level s.buf).symm

/-- Settles O32: `DOT` keeps the glyphs `LDG` loaded, and `LDG` clears the point `DOT` set. -/
theorem pointSurvivesOnlyAfterTheGlyphs : Obligations.PointSurvivesOnlyAfterTheGlyphs := by
  unfold Obligations.PointSurvivesOnlyAfterTheGlyphs
  constructor
  · intro g p s t u hldg hdot
    rw [exec_exec_buf hldg hdot, bufOf, bufOf]
    exact ⟨fun i => by rw [seg_dotBuf, seg_ldgBuf], fun i hi => ov_dotBuf_iff hi⟩
  · intro g p s t u hdot hldg
    rw [exec_exec_buf hdot hldg, bufOf, bufOf]
    exact ⟨fun _ => seg_ldgBuf, fun i hi => ov_ldgBuf_of_mem_dotIdx hi⟩

/-! ### One frame keeps the discipline of the trace (R54 to R57, R92) -/

theorem eventFits_frameEvents {tx : TxMode} {cs : Bool} {e : List Byte} {ev : Event} (h : ev ∈ frameEvents tx cs e) :
    eventFits tx cs ev = true := by
  have hbody : ∀ ev ∈ bodyEvents tx e, eventFits tx cs ev = true := by
    cases tx with
    | bulk => simp [bodyEvents, bulkEvents, eventFits]
    | bitbang =>
      simp only [bodyEvents, bitbangEvents, List.mem_flatMap]
      rintro ev ⟨x, -, hev⟩
      simp only [bitEvents, List.mem_cons, List.not_mem_nil, or_false] at hev
      obtain rfl | rfl | rfl := hev <;> rfl
  cases cs with
  | false => exact hbody ev (frameEvents_false tx e ▸ h)
  | true =>
    rw [frameEvents_true] at h
    simp only [List.cons_append, List.mem_cons, List.mem_append, List.not_mem_nil, or_false] at h
    obtain rfl | hev | rfl := h
    · rfl
    · exact hbody ev hev
    · rfl

theorem clocked_bodyEvents_append (tx : TxMode) (e : List Byte) (es : List Event) :
    clocked .between (bodyEvents tx e ++ es) = clocked .between es := by
  cases tx with
  | bulk => simp [bodyEvents, bulkEvents, clocked]
  | bitbang => exact clocked_bits (bitsOfBytes e) es

theorem clocked_frameEvents (tx : TxMode) (cs : Bool) (e : List Byte) :
    clocked .between (frameEvents tx cs e) = true := by
  cases cs with
  | false =>
    rw [frameEvents_false, ← List.append_nil (bodyEvents tx e), clocked_bodyEvents_append]
    rfl
  | true =>
    rw [frameEvents_true, List.cons_append, clocked, clocked_bodyEvents_append]
    rfl

theorem bracketed_frameEvents (tx : TxMode) (e : List Byte) : bracketed false (frameEvents tx true e) = true := by
  rw [frameEvents_true, List.cons_append]
  cases tx with
  | bulk => rfl
  | bitbang => exact bracketed_bits (bitsOfBytes e) [.cs true]

theorem traceOk_transmit {s : State} (h : TraceOk s) (e : List Byte) : TraceOk (transmit s e) := by
  obtain ⟨hfits, hclocked, hbracketed⟩ := h
  refine ⟨fun ev hev => ?_, ?_, fun hcs => ?_⟩
  · rw [transmit_trace, List.mem_append] at hev
    exact hev.elim (hfits ev) eventFits_frameEvents
  · rw [transmit_trace, clocked_append _ _ _ hclocked, clocked_frameEvents]
  · rw [transmit_csPresent] at hcs
    rw [transmit_trace, bracketed_append _ _ _ (hbracketed hcs), hcs, bracketed_frameEvents]

theorem traceOk_of_step {s t : State} (hs : TraceOk s) (h : step s = .next t) : TraceOk t := by
  obtain rfl | ⟨rest, i, rfl⟩ := step_next_transmit h
  · exact hs
  · exact traceOk_transmit hs _

/-! ### Safety of every reachable state -/

theorem safe_afterReset (c : Config) (tx : TxMode) (cs : Bool) (clk data : Bit) :
    Safe (State.afterReset c tx cs clk data) where
  overlay := by
    have hdark (i : Pos) : ov (byteAt (State.afterReset c tx cs clk data).buf i) = false :=
      (congrArg ov (zeroBuf_get i)).trans ov_zero
    rw [OverlayOk, dotBits_of_dark fun i _ => hdark i, batteryBits_of_dark fun i _ => hdark i]
    exact ⟨by decide, by decide⟩
  trace := ⟨fun e he => absurd he List.not_mem_nil, rfl, fun _ => rfl⟩
  lines := ⟨{ cs := true, clk := clk, data := data }, rfl, rfl⟩
  chip := fun _ f hf => by cases hf

theorem safe_of_construct {b : Build} {s : State} (h : State.construct b = .next s) : Safe s := by
  unfold State.construct at h
  split_ifs at h
  cases h
  exact safe_afterReset _ _ _ _ _

/-- Safety speaks of no move still to come. -/
theorem safe_of_hosted {s : State} (h : Safe s) (moves : List HostMove) : Safe { s with requests := moves } :=
  ⟨h.overlay, h.trace, h.lines, h.chip⟩

theorem safe_of_step {s t : State} (hs : Safe s) (h : step s = .next t) : Safe t := by
  obtain ⟨hoverlay, htrace, hlines, hchip⟩ := hs
  obtain ⟨hlines', -⟩ := stepKeepsLinesAtTheLastDrivenLevel s t hlines h
  exact ⟨stepKeepsTheOverlayRules s t hoverlay h, traceOk_of_step htrace h, hlines',
    stepKeepsTheChipAbreastOfTheBuffer s t htrace hchip h⟩

/-- Settles O38: by induction on how the state is reached. -/
theorem reachableStatesAreSafe : Obligations.ReachableStatesAreSafe := by
  unfold Obligations.ReachableStatesAreSafe
  intro s h
  induction h with
  | built hb => exact safe_of_construct hb
  | hosted moves _ ih => exact safe_of_hosted ih moves
  | stepped _ hstep ih => exact safe_of_step ih hstep

end Sys2Proof.Machine

/-! The obligations of 60_exceptions.md: what is refused (R77, R86), and that a request does not depend on what came
before it (R82). -/

namespace Sys2Proof

/-! ### Which request words decode (R43) -/

theorem decode_ok_of_opField_le {w : ReqWord} (h : (opField w).toNat ≤ 4) : ∃ i, decode w = .ok i := by
  have hcode : opField w = 0#3 ∨ opField w = 1#3 ∨ opField w = 2#3 ∨ opField w = 3#3 ∨ opField w = 4#3 := by bv_omega
  obtain h0 | h1 | h2 | h3 | h4 := hcode
  · exact ⟨_, decode_cmd h0⟩
  · exact ⟨_, decode_ldg h1⟩
  · exact ⟨_, decode_dot h2⟩
  · exact ⟨_, decode_bat h3⟩
  · exact ⟨_, decode_clr h4⟩

/-- The only error of the decoder names the word's own operation code, and that code is reserved. -/
theorem decode_error_iff {w : ReqWord} {op : BitVec 3} :
    decode w = .error (.reservedOp op) ↔ opField w = op ∧ 5 ≤ op.toNat := by
  constructor
  · intro h
    by_cases hle : (opField w).toNat ≤ 4
    · obtain ⟨i, hi⟩ := decode_ok_of_opField_le hle
      rw [hi] at h
      cases h
    · have hop : 5 ≤ (opField w).toNat := by omega
      rw [decode_reserved hop] at h
      cases h
      exact ⟨rfl, hop⟩
  · rintro ⟨rfl, hop⟩
    exact decode_reserved hop

end Sys2Proof

namespace Sys2Proof.Machine

/-! ### Every way a step stops (R86) -/

theorem step_of_overlap {s : State} {w : ReqWord} {rest : List HostMove} (h : s.requests = .overlap w :: rest) :
    step s = .refused .overlappingRequest := by
  simp [step, nextMove, h]

theorem step_of_reserved {s : State} {w : ReqWord} {rest : List HostMove} {op : BitVec 3}
    (h : s.requests = .request w :: rest) (hdec : decode w = .error (.reservedOp op)) :
    step s = .refused (.reservedOperation op) := by
  rw [step_of_request h, perform, hdec]

/-- A step that is refused met an overlapping request or a word that does not decode: no operation refuses. -/
theorem step_refused {s : State} {r : Refusal} (h : step s = .refused r) :
    (r = .overlappingRequest ∧ ∃ w rest, s.requests = .overlap w :: rest) ∨
    (∃ op, r = .reservedOperation op ∧
      ∃ w rest, s.requests = .request w :: rest ∧ decode w = .error (.reservedOp op)) := by
  obtain ⟨_, e⟩ | ⟨w, rest, hr, e⟩ | ⟨w, rest, op, hr, hdec, e⟩ | ⟨_, _, i, _, _, e⟩ := step_cases s
  · rw [e] at h; cases h
  · rw [e] at h; cases h; exact .inl ⟨rfl, w, rest, hr⟩
  · rw [e] at h; cases h; exact .inr ⟨op, rfl, w, rest, hr, hdec⟩
  · rw [e, exec_eq] at h; cases h

/-- Settles O8: each refusal traced to the move that causes it and back; no fault exists to be answered. -/
theorem stepRefusesOnlyReservedAndOverlapping : Obligations.StepRefusesOnlyReservedAndOverlapping := by
  unfold Obligations.StepRefusesOnlyReservedAndOverlapping
  refine ⟨fun s => ⟨fun h => ?_, fun ⟨w, rest, hr⟩ => step_of_overlap hr⟩, fun s op => ⟨fun h => ?_, ?_⟩,
    fun s r h => ?_, fun s f => nomatch f⟩
  · obtain ⟨-, hr⟩ | ⟨op, e, -⟩ := step_refused h
    · exact hr
    · cases e
  · obtain ⟨e, -⟩ | ⟨op', e, w, rest, hr, hdec⟩ := step_refused h
    · cases e
    · cases e
      exact ⟨w, rest, hr, decode_error_iff.1 hdec⟩
  · rintro ⟨w, rest, hr, hop⟩
    exact step_of_reserved hr (decode_error_iff.2 hop)
  · obtain ⟨e, -⟩ | ⟨op, e, -⟩ := step_refused h
    · exact .inl e
    · exact .inr ⟨op, e⟩

/-! ### A request is a function of configuration, straps and buffer (R82) -/

/-- Settles O40: the buffer an operation leaves and the frame it appends are functions of the fields the two states
share. -/
theorem requestsDoNotDependOnHistory : Obligations.RequestsDoNotDependOnHistory := by
  unfold Obligations.RequestsDoNotDependOnHistory
  intro i s s' t t' hcfg htx hcs hbuf h h'
  obtain ⟨-, -, -, -, ht, htrace⟩ := exec_next h
  obtain ⟨-, -, -, -, ht', htrace'⟩ := exec_next h'
  have hsame : t.buf = t'.buf := by rw [ht, ht', hcfg, hbuf]
  rw [hcfg, htx, hcs, hsame] at htrace
  exact ⟨hsame, _, htrace, htrace'⟩

/-! ### A well-behaved host (R77, R86) -/

/-- A step of a well-behaved host's block completes, and leaves the host well-behaved. -/
theorem step_of_wellBehaved {s : State} (h : wellBehaved s.requests = true) :
    ∃ t, step s = .next t ∧ wellBehaved t.requests = true := by
  cases hr : s.requests with
  | nil => exact ⟨s, step_of_no_request hr, h⟩
  | cons m rest =>
    rw [hr] at h
    cases m with
    | overlap w => cases h
    | request w =>
      obtain ⟨hop, hrest⟩ : (opField w).toNat ≤ 4 ∧ wellBehaved rest = true := by
        simpa only [wellBehaved, Bool.and_eq_true, decide_eq_true_eq] using h
      obtain ⟨i, hdec⟩ := decode_ok_of_opField_le hop
      have hstep := step_of_request hr
      rw [perform_of_decode_ok hdec, exec_eq] at hstep
      exact ⟨_, hstep, hrest⟩

/-- Settles O42: by induction on the number of steps, every one of which leaves the host well-behaved. -/
theorem wellBehavedHostIsNeverRefused : Obligations.WellBehavedHostIsNeverRefused := by
  unfold Obligations.WellBehavedHostIsNeverRefused
  intro n
  induction n with
  | zero => exact fun s _ => ⟨s, rfl⟩
  | succ n ih =>
    intro s h
    obtain ⟨t, hstep, ht⟩ := step_of_wellBehaved h
    rw [run_of_step hstep]
    exact ih t ht

end Sys2Proof.Machine

/-! The obligations of 70_reset_and_hazards.md: what construction leaves (R87, R88), and that every step keeps the
discipline of the trace (R92). -/

namespace Sys2Proof.Machine

/-! ### The discipline of the trace (R92) -/

/-- Settles O35: an idle step changes nothing, and any other one appends the events of one frame (`traceOk_of_step`). -/
theorem stepKeepsTheTraceDiscipline : Obligations.StepKeepsTheTraceDiscipline := by
  unfold Obligations.StepKeepsTheTraceDiscipline
  exact fun _ _ => traceOk_of_step

/-! ### Reset (R87, R88) -/

/-- A construction that succeeds answers the reset state of its own parameters, straps and undriven levels (R87). -/
theorem eq_afterReset_of_construct {b : Build} {s : State} (h : State.construct b = .next s) :
    ∃ hwf : b.params.wellFormed = true,
      s = State.afterReset ⟨b.params, hwf⟩ b.txmode b.csLine b.clkBefore b.dataBefore := by
  unfold State.construct at h
  split_ifs at h with _ hwf
  cases h
  exact ⟨hwf, rfl⟩

/-- Settles O10: the reset state field by field, and no operation refuses (`exec_eq`). -/
theorem constructionLeavesTheResetState : Obligations.ConstructionLeavesTheResetState := by
  unfold Obligations.ConstructionLeavesTheResetState
  intro b s h
  obtain ⟨hwf, rfl⟩ := eq_afterReset_of_construct h
  exact ⟨rfl, rfl, rfl, zeroBuf_get, rfl, rfl, fun i => ⟨_, exec_eq i _⟩⟩

end Sys2Proof.Machine

/-! The request words of 95_test_vectors.md, and the base case of the invariants (R23, R87, R88). -/

namespace Sys2Proof

/-- Settles O1: each word takes the decoder's branch of its operation code, and its operand fields are the stated ones. -/
theorem specWordsDecodeToTheirInstruction : Obligations.SpecWordsDecodeToTheirInstruction := by
  unfold Obligations.SpecWordsDecodeToTheirInstruction
  exact ⟨decode_cmd rfl, decode_cmd rfl, decode_ldg rfl, decode_dot rfl, decode_dot rfl, decode_bat rfl, decode_bat rfl,
    decode_clr rfl, decode_error_iff.2 ⟨rfl, by decide⟩, decode_error_iff.2 ⟨rfl, by decide⟩⟩

end Sys2Proof

namespace Sys2Proof.Machine

/-- Settles O33: a construction that succeeds answers a reset state, whose zero buffer lights no overlay and whose trace
is empty. -/
theorem builtBlocksAreSafe : Obligations.BuiltBlocksAreSafe := by
  unfold Obligations.BuiltBlocksAreSafe
  exact fun _ _ => safe_of_construct

end Sys2Proof.Machine
